-- ==== Sys2Proof/Word.lean ====
section
/-! DEFINITION. The bit-vector types the spec's values are read as: bytes, 16-bit words, 4-bit register and key
indices, and the 12-bit address field (00_scope R5, R7, R8; 30_encoding R71). Every value is unsigned. -/

namespace Sys2Proof

/-- A memory cell, a general register, a timer, or the `kk` field: 8 bits (10_state R20, R27, R28; 20_memory R50). -/
abbrev Byte := BitVec 8

/-- `I`, `pc`, a stack entry or an instruction word: 16 bits (10_state R22, R23, R25; 30_encoding R70). -/
abbrev Word := BitVec 16

/-- A 4-bit slice of an instruction word, and the `n` field (00_scope R8; 30_encoding R71). -/
abbrev Nibble := BitVec 4

/-- The 4-bit index of a general register, always in range (10_state R20). -/
abbrev RegIdx := BitVec 4

/-- A key index 0 to 15 (10_state R29, R30). -/
abbrev KeyIdx := BitVec 4

/-- The 12-bit address field `nnn` (30_encoding R71). -/
abbrev Addr12 := BitVec 12

end Sys2Proof
end

