-- ==== Sys2Proof/Syntax.lean ====
section
/-! DEFINITION. The 35 instructions of 30_encoding R73 (every row of spec/opcode_table.json), with their operand
fields as decoded bits (R71). The instruction keeps every bit of its word that the pattern does not fix, the ignored ones
too (R82), so that the word can be given back: a fault record holds it (10_state R35). -/

namespace Sys2Proof

/-- One constructor per row of spec/opcode_table.json, in the table's order (30_encoding R73). -/
inductive Instr where
  /-- `SYS nnn` (0nnn, nibble1 not 0): ignored machine-routine call, 41_flow R120. -/
  | sys (nnn : Addr12)
  /-- `CLS` (00E0): clear the framebuffer, 42_display R150. -/
  | cls
  /-- `RET` (00EE): return from subroutine, 41_flow R121. -/
  | ret
  /-- `JP nnn` (1nnn): absolute jump, 41_flow R122. -/
  | jp (nnn : Addr12)
  /-- `CALL nnn` (2nnn): subroutine call, 41_flow R123. -/
  | call (nnn : Addr12)
  /-- `SE Vx, kk` (3xkk): skip if equal to immediate, 41_flow R124. -/
  | seImm (x : RegIdx) (kk : Byte)
  /-- `SNE Vx, kk` (4xkk): skip if not equal to immediate, 41_flow R125. -/
  | sneImm (x : RegIdx) (kk : Byte)
  /-- `SE Vx, Vy` (5xy0): skip if registers equal, 41_flow R126. -/
  | seReg (x y : RegIdx)
  /-- `LD Vx, kk` (6xkk): load immediate, 43_alu R160. -/
  | ldImm (x : RegIdx) (kk : Byte)
  /-- `ADD Vx, kk` (7xkk): add immediate, no flag, 43_alu R161. -/
  | addImm (x : RegIdx) (kk : Byte)
  /-- `LD Vx, Vy` (8xy0): copy register, 43_alu R162. -/
  | ldReg (x y : RegIdx)
  /-- `OR Vx, Vy` (8xy1), 43_alu R163. -/
  | orReg (x y : RegIdx)
  /-- `AND Vx, Vy` (8xy2), 43_alu R164. -/
  | andReg (x y : RegIdx)
  /-- `XOR Vx, Vy` (8xy3), 43_alu R165. -/
  | xorReg (x y : RegIdx)
  /-- `ADD Vx, Vy` (8xy4): add with carry flag, 43_alu R166. -/
  | addReg (x y : RegIdx)
  /-- `SUB Vx, Vy` (8xy5), 43_alu R167. -/
  | subReg (x y : RegIdx)
  /-- `SHR Vx` (8xy6, y ignored), 43_alu R168, 30_encoding R82. -/
  | shr (x y : RegIdx)
  /-- `SUBN Vx, Vy` (8xy7), 43_alu R169. -/
  | subnReg (x y : RegIdx)
  /-- `SHL Vx` (8xyE, y ignored), 43_alu R170, 30_encoding R82. -/
  | shl (x y : RegIdx)
  /-- `SNE Vx, Vy` (9xy0): skip if registers differ, 41_flow R127. -/
  | sneReg (x y : RegIdx)
  /-- `LD I, nnn` (Annn): set index, 44_index_memory R190. -/
  | ldI (nnn : Addr12)
  /-- `JP V0, nnn` (Bnnn): jump with offset, 41_flow R128. -/
  | jpV0 (nnn : Addr12)
  /-- `RND Vx, kk` (Cxkk): random byte AND mask, 43_alu R171. -/
  | rnd (x : RegIdx) (kk : Byte)
  /-- `DRW Vx, Vy, n` (Dxyn): draw sprite, 42_display R151. -/
  | drw (x y : RegIdx) (n : Nibble)
  /-- `SKP Vx` (Ex9E): skip if key pressed, 45_keys_timers R210. -/
  | skp (x : RegIdx)
  /-- `SKNP Vx` (ExA1): skip if key not pressed, 45_keys_timers R211. -/
  | sknp (x : RegIdx)
  /-- `LD Vx, DT` (Fx07): read delay timer, 45_keys_timers R212. -/
  | ldVxDt (x : RegIdx)
  /-- `LD Vx, K` (Fx0A): wait for a key release, 45_keys_timers R213. -/
  | ldVxK (x : RegIdx)
  /-- `LD DT, Vx` (Fx15): set delay timer, 45_keys_timers R214. -/
  | ldDtVx (x : RegIdx)
  /-- `LD ST, Vx` (Fx18): set sound timer, 45_keys_timers R215. -/
  | ldStVx (x : RegIdx)
  /-- `ADD I, Vx` (Fx1E): add to index, no flag, 44_index_memory R191. -/
  | addI (x : RegIdx)
  /-- `LD F, Vx` (Fx29): point I at a font glyph, 44_index_memory R192. -/
  | ldF (x : RegIdx)
  /-- `LD B, Vx` (Fx33): store BCD digits, 44_index_memory R193. -/
  | ldB (x : RegIdx)
  /-- `LD [I], Vx` (Fx55): store V0 to Vx, 44_index_memory R194. -/
  | storeRegs (x : RegIdx)
  /-- `LD Vx, [I]` (Fx65): load V0 to Vx, 44_index_memory R195. -/
  | loadRegs (x : RegIdx)
  deriving DecidableEq, Repr

end Sys2Proof
end

