-- ==== Sys2Proof/Decode.lean ====
section
/-! DEFINITION. Decoding and encoding (30_encoding R70 to R85). Decoding is a total function of the word and nothing
else (R83): a word gives one of the 35 instructions or is illegal, by the name of the rule that refuses it. The encoder
is written from the same table (R73) and gives back every bit of the word. -/

namespace Sys2Proof

/-- nibble0, the major opcode: w[15:12] (00_scope R8, 30_encoding R71). -/
def fieldOp (w : Word) : Nibble := w.extractLsb' 12 4

/-- x, nibble1: w[11:8] (30_encoding R71). -/
def fieldX (w : Word) : RegIdx := w.extractLsb' 8 4

/-- y, nibble2: w[7:4] (30_encoding R71). -/
def fieldY (w : Word) : RegIdx := w.extractLsb' 4 4

/-- n, nibble3: w[3:0] (30_encoding R71). -/
def fieldN (w : Word) : Nibble := w.extractLsb' 0 4

/-- kk, the low byte: w[7:0] (30_encoding R71). -/
def fieldKk (w : Word) : Byte := w.extractLsb' 0 8

/-- nnn, the low 12 bits: w[11:0] (30_encoding R71). -/
def fieldNnn (w : Word) : Addr12 := w.extractLsb' 0 12

/-- Why bytes are not an instruction. -/
inductive DecodeReject where
  /-- Fewer than the two bytes an instruction needs (30_encoding R70). -/
  | truncated
  /-- 0x0000 to 0x00FF except 0x00E0 and 0x00EE (30_encoding R74). -/
  | group0 (w : Word)
  /-- 0x5xyn with n not 0 (30_encoding R75). -/
  | group5 (w : Word)
  /-- 0x8xyn with n one of 8, 9, A, B, C, D, F (30_encoding R76). -/
  | group8 (w : Word)
  /-- 0x9xyn with n not 0 (30_encoding R75). -/
  | group9 (w : Word)
  /-- 0xExkk with kk neither 9E nor A1 (30_encoding R77). -/
  | groupE (w : Word)
  /-- 0xFxkk with kk none of the nine of 30_encoding R78. -/
  | groupF (w : Word)
  deriving DecidableEq, Repr

/-- What decoding answers (30_encoding R83). -/
inductive Decoded where
  /-- One of the 35 instructions, with its fields. -/
  | instr (i : Instr)
  /-- Illegal, by name. -/
  | illegal (why : DecodeReject)
  deriving DecidableEq, Repr

/-- Group 0x0 (30_encoding R74). The reading of "N≠0" as nibble1 is the spec's decision D6; log entry 8. -/
def decodeGroup0 (w : Word) : Decoded :=
  if w = 0x00E0#16 then .instr .cls
  else if w = 0x00EE#16 then .instr .ret
  else if fieldX w ≠ 0x0#4 then .instr (.sys (fieldNnn w))
  else .illegal (.group0 w)

/-- Group 0x8 (30_encoding R76). The sub-opcode values are general knowledge in the spec (D29); log entry 9. -/
def decodeGroup8 (w : Word) : Decoded :=
  if fieldN w = 0x0#4 then .instr (.ldReg (fieldX w) (fieldY w))
  else if fieldN w = 0x1#4 then .instr (.orReg (fieldX w) (fieldY w))
  else if fieldN w = 0x2#4 then .instr (.andReg (fieldX w) (fieldY w))
  else if fieldN w = 0x3#4 then .instr (.xorReg (fieldX w) (fieldY w))
  else if fieldN w = 0x4#4 then .instr (.addReg (fieldX w) (fieldY w))
  else if fieldN w = 0x5#4 then .instr (.subReg (fieldX w) (fieldY w))
  else if fieldN w = 0x6#4 then .instr (.shr (fieldX w) (fieldY w))
  else if fieldN w = 0x7#4 then .instr (.subnReg (fieldX w) (fieldY w))
  else if fieldN w = 0xE#4 then .instr (.shl (fieldX w) (fieldY w))
  else .illegal (.group8 w)

/-- Group 0xE (30_encoding R77). -/
def decodeGroupE (w : Word) : Decoded :=
  if fieldKk w = 0x9E#8 then .instr (.skp (fieldX w))
  else if fieldKk w = 0xA1#8 then .instr (.sknp (fieldX w))
  else .illegal (.groupE w)

/-- Group 0xF (30_encoding R78). -/
def decodeGroupF (w : Word) : Decoded :=
  if fieldKk w = 0x07#8 then .instr (.ldVxDt (fieldX w))
  else if fieldKk w = 0x0A#8 then .instr (.ldVxK (fieldX w))
  else if fieldKk w = 0x15#8 then .instr (.ldDtVx (fieldX w))
  else if fieldKk w = 0x18#8 then .instr (.ldStVx (fieldX w))
  else if fieldKk w = 0x1E#8 then .instr (.addI (fieldX w))
  else if fieldKk w = 0x29#8 then .instr (.ldF (fieldX w))
  else if fieldKk w = 0x33#8 then .instr (.ldB (fieldX w))
  else if fieldKk w = 0x55#8 then .instr (.storeRegs (fieldX w))
  else if fieldKk w = 0x65#8 then .instr (.loadRegs (fieldX w))
  else .illegal (.groupF w)

/-- Decode one instruction word (30_encoding R73 to R80, R83). -/
def decodeWord (w : Word) : Decoded :=
  if fieldOp w = 0x0#4 then decodeGroup0 w
  else if fieldOp w = 0x1#4 then .instr (.jp (fieldNnn w))
  else if fieldOp w = 0x2#4 then .instr (.call (fieldNnn w))
  else if fieldOp w = 0x3#4 then .instr (.seImm (fieldX w) (fieldKk w))
  else if fieldOp w = 0x4#4 then .instr (.sneImm (fieldX w) (fieldKk w))
  else if fieldOp w = 0x5#4 then
    if fieldN w = 0x0#4 then .instr (.seReg (fieldX w) (fieldY w)) else .illegal (.group5 w)
  else if fieldOp w = 0x6#4 then .instr (.ldImm (fieldX w) (fieldKk w))
  else if fieldOp w = 0x7#4 then .instr (.addImm (fieldX w) (fieldKk w))
  else if fieldOp w = 0x8#4 then decodeGroup8 w
  else if fieldOp w = 0x9#4 then
    if fieldN w = 0x0#4 then .instr (.sneReg (fieldX w) (fieldY w)) else .illegal (.group9 w)
  else if fieldOp w = 0xA#4 then .instr (.ldI (fieldNnn w))
  else if fieldOp w = 0xB#4 then .instr (.jpV0 (fieldNnn w))
  else if fieldOp w = 0xC#4 then .instr (.rnd (fieldX w) (fieldKk w))
  else if fieldOp w = 0xD#4 then .instr (.drw (fieldX w) (fieldY w) (fieldN w))
  else if fieldOp w = 0xE#4 then decodeGroupE w
  else decodeGroupF w

/-- Two bytes in fetch order as a word: the first is the high byte (20_memory R57). -/
def wordOfBytes (hi lo : Byte) : Word := hi ++ lo

/-- The two bytes of a word as memory holds them, high byte first (20_memory R57). -/
def bytesOfWord (w : Word) : List Byte := [w.extractLsb' 8 8, w.extractLsb' 0 8]

/-- Decode the instruction at the head of a byte sequence and give back the bytes after it: exactly two bytes are
consumed (30_encoding R70). -/
def decodeBytes : List Byte → Decoded × List Byte
  | hi :: lo :: rest => (decodeWord (wordOfBytes hi lo), rest)
  | short => (.illegal .truncated, short)

/-- The word of an instruction (30_encoding R73). -/
def encode : Instr → Word
  | .sys nnn => 0x0#4 ++ nnn
  | .cls => 0x00E0#16
  | .ret => 0x00EE#16
  | .jp nnn => 0x1#4 ++ nnn
  | .call nnn => 0x2#4 ++ nnn
  | .seImm x kk => 0x3#4 ++ x ++ kk
  | .sneImm x kk => 0x4#4 ++ x ++ kk
  | .seReg x y => 0x5#4 ++ x ++ y ++ 0x0#4
  | .ldImm x kk => 0x6#4 ++ x ++ kk
  | .addImm x kk => 0x7#4 ++ x ++ kk
  | .ldReg x y => 0x8#4 ++ x ++ y ++ 0x0#4
  | .orReg x y => 0x8#4 ++ x ++ y ++ 0x1#4
  | .andReg x y => 0x8#4 ++ x ++ y ++ 0x2#4
  | .xorReg x y => 0x8#4 ++ x ++ y ++ 0x3#4
  | .addReg x y => 0x8#4 ++ x ++ y ++ 0x4#4
  | .subReg x y => 0x8#4 ++ x ++ y ++ 0x5#4
  | .shr x y => 0x8#4 ++ x ++ y ++ 0x6#4
  | .subnReg x y => 0x8#4 ++ x ++ y ++ 0x7#4
  | .shl x y => 0x8#4 ++ x ++ y ++ 0xE#4
  | .sneReg x y => 0x9#4 ++ x ++ y ++ 0x0#4
  | .ldI nnn => 0xA#4 ++ nnn
  | .jpV0 nnn => 0xB#4 ++ nnn
  | .rnd x kk => 0xC#4 ++ x ++ kk
  | .drw x y n => 0xD#4 ++ x ++ y ++ n
  | .skp x => 0xE#4 ++ x ++ 0x9E#8
  | .sknp x => 0xE#4 ++ x ++ 0xA1#8
  | .ldVxDt x => 0xF#4 ++ x ++ 0x07#8
  | .ldVxK x => 0xF#4 ++ x ++ 0x0A#8
  | .ldDtVx x => 0xF#4 ++ x ++ 0x15#8
  | .ldStVx x => 0xF#4 ++ x ++ 0x18#8
  | .addI x => 0xF#4 ++ x ++ 0x1E#8
  | .ldF x => 0xF#4 ++ x ++ 0x29#8
  | .ldB x => 0xF#4 ++ x ++ 0x33#8
  | .storeRegs x => 0xF#4 ++ x ++ 0x55#8
  | .loadRegs x => 0xF#4 ++ x ++ 0x65#8

/-- The bytes of an instruction as memory holds them (20_memory R57). -/
def encodeBytes (i : Instr) : List Byte := bytesOfWord (encode i)

/-- The word the opcode table's numbering gives: an instruction is one 16-bit word whose bit 0 is the table's bit 0; bits at and above `nbits` are 0. -/
def tableWord (nbits w : Nat) : Word := BitVec.ofNat 16 (w % 2 ^ nbits)

/-- The instruction the decoder reads from a table word, laid out in memory order first. -/
def decodeTableWord (nbits w : Nat) : Option Instr :=
  match (decodeBytes (bytesOfWord (tableWord nbits w))).1 with
  | .instr i => some i
  | .illegal _ => none

end Sys2Proof
end

