-- ==== Sys2Proof/Config.lean ====
section
/-! DEFINITION. The two inputs the spec leaves open as parameters with values the model may not choose: the font bytes and
the random bytes (00_scope R6). The third open parameter, `HOST_TIMER_TICKS`, is a schedule of host operations
(Machine/Ports.lean). The sizes of 00_scope R5 are fixed and stand in the types of Machine/State.lean (16 registers, 16 stack
entries, 64 by 32 pixels) and as numerals where they are used: memory 4096 bytes, font 80 bytes, program base 0x200,
program maximum 3584 bytes. -/

namespace Sys2Proof.Config

/-- The parameter `FONT`: 80 bytes the spec never lists (00_scope R6, 92_eei_decisions D14). FREE VALUE: it has no body,
so no claim can rest on a glyph's bits; log entry 1 (DESIGN CHOICE, safe). -/
opaque font : Vector Byte 80

/-- The parameter `RNG`: the byte of the `n`-th draw (60_exceptions R257, D13). FREE VALUE: it has no body and no law relates
two draws; `State.rngCount` supplies `n`; log entry 2 (DESIGN CHOICE, safe). -/
opaque rng : Nat → Byte

end Sys2Proof.Config
end

