-- ==== Sys2Proof/Machine/State.lean ====
section
/-! DEFINITION. The state the spec gives the machine (10_state R20 to R38), the reasons a step can stop, and the state
right after reset (10_state R37, 70_reset R280). State is plain data. -/

namespace Sys2Proof.Machine

/-- Memory: the bytes that differ from their reset byte, as (address, byte) cells (10_state R34, 20_memory R50).
`Memory.wf` (Machine/Ops.lean) is its one canonical form. -/
abbrev Memory := List Host.Cell

/-- The spec's fault kinds (60_exceptions R230). The spec describes what raising each one does (R238): the `fault` register
is written and the core halts. That IS the machine's next state, so the model answers `next` with the record in
`State.fault`, and no step ever answers `Host.Outcome.fault`; log entry 3. All six are raised exactly where the spec raises them,
so none is an early stop of the model's own. -/
inductive Fault where
  /-- Raised by the step cycle when the fetched word is illegal (R231). Safe: the rule's own fault. -/
  | decodeError
  /-- Raised by `CALL` at sp = 16 (R232). Safe: the rule's own fault (the source's undefined behaviour, D5). -/
  | stackOverflow
  /-- Raised by `RET` at sp = 0 (R233). Safe: the rule's own fault (D5). -/
  | stackUnderflow
  /-- Raised by the step cycle at pc = 0xFFF (R234). Safe: the rule's own fault (D3). -/
  | fetchOutOfBounds
  /-- Raised by `DRW`, `LD B`, `LD [I]` and `LD Vx, [I]` when a data address is 4096 or more (R235). Safe: the rule's own fault (D4). -/
  | memoryOutOfBounds
  /-- Raised by `SKP` and `SKNP` when V[x] is 16 or more (R236). Safe: the rule's own fault (D10). -/
  | keyIndexOutOfRange
  deriving DecidableEq, Repr

/-- The fault kinds' codes (60_exceptions R230, D12); code 0 means no fault. -/
def Fault.code : Fault → Nat
  | .decodeError => 1
  | .stackOverflow => 2
  | .stackUnderflow => 3
  | .fetchOutOfBounds => 4
  | .memoryOutOfBounds => 5
  | .keyIndexOutOfRange => 6

/-- Why the model refuses. -/
inductive Refusal where
  /-- An instruction without a meaning in exec. No arm of exec uses it. Safe: the model stops. -/
  | notModelled (mnemonic : String)
  /-- A host key event whose index is above 15: it has no meaning in the spec and a model refuses it (60_exceptions R260, D17).
  Raised by the host operation `keyEvent` only, by no instruction. Safe. -/
  | keyEventIndex (k : Nat)
  deriving DecidableEq, Repr

/-- The fault record (10_state R35). -/
structure FaultRecord where
  /-- The fault's kind (60_exceptions R230). -/
  kind : Fault
  /-- The address of the instruction at fault. -/
  pc : Word
  /-- The instruction word, or none for `fetchOutOfBounds`. -/
  word : Option Word
  /-- The first out-of-range data address for `memoryOutOfBounds`, none for every other kind. -/
  addr : Option Nat
  deriving DecidableEq, Repr

/-- Every piece of state the spec gives the machine (10_state), and the model's own count of random draws. -/
structure State where
  /-- The general registers V0 to VF; VF is V[15] (10_state R20, R21). -/
  v : Vector Byte 16
  /-- The address register I (10_state R22). -/
  i : Word
  /-- The program counter (10_state R23). -/
  pc : Word
  /-- The number of stack entries in use, 0 to 16 (10_state R26). -/
  sp : Fin 17
  /-- The return-address stack (10_state R25). -/
  stack : Vector Word 16
  /-- The delay timer DT (10_state R27). -/
  dt : Byte
  /-- The sound timer ST (10_state R28). -/
  st : Byte
  /-- The keys' "currently pressed" flags (10_state R29). -/
  pressed : Vector Bool 16
  /-- The most recently released key, until consumed (10_state R30). -/
  latch : Option KeyIdx
  /-- The target register of a key-wait (10_state R31). -/
  keyWait : Option RegIdx
  /-- The framebuffer: fb[x][y], column x, row y (10_state R32). -/
  fb : Vector (Vector Bool 32) 64
  /-- The framebuffer changed since the host last consumed the flag (10_state R33). -/
  dirty : Bool
  /-- The 4096 bytes of memory (10_state R34). -/
  mem : Memory
  /-- The fault record; a core is halted exactly when it is not none (10_state R35). -/
  fault : Option FaultRecord
  /-- The MODEL's own field: how many bytes have been drawn from `Config.rng`; log entry 2. -/
  rngCount : Nat
  deriving DecidableEq, Repr

/-- Reset with an empty image (10_state R37, 70_reset R280, R281): no cell listed, so memory reads as FONT, then zeros. A program
is the argument of reset: `resetImage` (Machine/Ops.lean); log entry 4. `rngCount` is the model's own (log entry 2, DESIGN CHOICE). -/
def State.reset : State where
  v := Vector.replicate 16 0
  i := 0
  pc := 0x200
  sp := 0
  stack := Vector.replicate 16 0
  dt := 0
  st := 0
  pressed := Vector.replicate 16 false
  latch := none
  keyWait := none
  fb := Vector.replicate 64 (Vector.replicate 32 false)
  dirty := false
  mem := []
  fault := none
  rngCount := 0

end Sys2Proof.Machine
end

