-- ==== Sys2Proof/Machine/Ops.lean ====
section
/-! DEFINITION. The named operations over memory, registers, stack, timers, framebuffer and keypad that every meaning is
written with (00_scope R9), and TAKING A FAULT as one shared operation (60_exceptions R238). There is no return from a
fault to write beside it: no such instruction exists and only reset clears the record (60_exceptions R239). -/

namespace Sys2Proof.Machine

/-! ### Memory -/

/-- What address `a` holds after reset with an empty image: FONT at 0x000 to 0x04F, 0 above (10_state R37). This is what an
address that no cell lists reads as. -/
def resetByte (a : Nat) : Byte := if h : a < 80 then Config.font[a] else 0#8

/-- The byte a cell lists for address `a`, if one does. -/
def memFind (a : Nat) : Memory → Option Byte
  | [] => none
  | c :: m => if c.1 = a then some c.2 else memFind a m

/-- `mem[a]` (20_memory R50, R54). Every instruction checks its addresses before its first access, so the fault of R54 is taken
by the instruction (Machine/Operands.lean), and this read is applied to addresses below 4096 only. -/
def memRead (m : Memory) (a : Nat) : Byte := (memFind a m).getD (resetByte a)

/-- List `b` for address `a`, keeping the addresses rising. -/
def memInsert (a : Nat) (b : Byte) : Memory → Memory
  | [] => [(a, b)]
  | c :: m => if a < c.1 then (a, b) :: c :: m else if a = c.1 then (a, b) :: m else c :: memInsert a b m

/-- Unlist address `a`. -/
def memErase (a : Nat) : Memory → Memory
  | [] => []
  | c :: m => if c.1 = a then memErase a m else c :: memErase a m

/-- `mem[a] <- b` (20_memory R55), kept in canonical form: writing the reset byte unlists the address. Outside 0 to 4095 there
is no byte and nothing is written; no instruction gets that far, since it faults first. -/
def memWrite (m : Memory) (a : Nat) (b : Byte) : Memory :=
  if a < 4096 then
    if b = resetByte a then memErase a m else memInsert a b m
  else m

/-- Write consecutive bytes at `a`, `a + 1`, ... (20_memory R56: natural addresses, in rising order, R60). -/
def memWriteBytes (a : Nat) : List Byte → Memory → Memory
  | [], m => m
  | b :: bs, m => memWriteBytes (a + 1) bs (memWrite m a b)

/-- The canonical form of memory: addresses strictly rising and inside the array, and no cell that lists its reset byte. -/
abbrev Memory.wf (m : Memory) : Prop :=
  m.Pairwise (fun c d => c.1 < d.1) ∧ ∀ c ∈ m, c.1 < 4096 ∧ c.2 ≠ resetByte c.1

/-- The byte at address `a` of the state's memory: `MemRead(a, 1)` (00_scope R9). -/
def readByte (s : State) (a : Nat) : Byte := memRead s.mem a

/-- Store bytes at `a`, `a + 1`, ...: `MemWrite` repeated (00_scope R9, 20_memory R60). -/
def storeBytes (a : Nat) (bs : List Byte) (s : State) : State := { s with mem := memWriteBytes a bs s.mem }

/-- `Fetch(pc)`: the big-endian word at pc (20_memory R57), applied at pc of at most 0xFFE (R58). -/
def fetchWord (s : State) : Word := wordOfBytes (readByte s s.pc.toNat) (readByte s (s.pc.toNat + 1))

/-- The state after `reset(image)` (70_reset R280): the first 3584 bytes of the image at 0x200 (R281), everything else as in
`State.reset`. -/
def resetImage (image : List Byte) : State :=
  { State.reset with mem := memWriteBytes 0x200 (image.take 3584) State.reset.mem }

/-! ### Registers and pc -/

/-- `V[x]` (00_scope R9, 10_state R20). -/
def getV (s : State) (x : RegIdx) : Byte := s.v[x.toNat]'x.isLt

/-- `V[x] <- b` (00_scope R9, 10_state R20). -/
def setV (x : RegIdx) (b : Byte) (s : State) : State := { s with v := s.v.set x.toNat b x.isLt }

/-- VF, register 0xF (10_state R21). -/
def regF : RegIdx := 0xF#4

/-- `I <- a` (00_scope R9). -/
def setI (a : Word) (s : State) : State := { s with i := a }

/-- `pc <- a` (00_scope R9). -/
def setPc (a : Word) (s : State) : State := { s with pc := a }

/-- `next`: pc + 2 (00_scope R9, 40_step_cycle R107). -/
def next (s : State) : State := setPc (s.pc + 2#16) s

/-- `skip`: pc + 4 (00_scope R9, 40_step_cycle R107). -/
def skip (s : State) : State := setPc (s.pc + 4#16) s

/-- `skip` when the condition holds, else `next` (40_step_cycle R107). -/
def skipIf (c : Bool) (s : State) : State := if c then skip s else next s

/-! ### The return-address stack -/

/-- Push a return address: `stack[sp] <- a; sp <- sp + 1`, and none when the stack is full (10_state R25, R26, 41_flow R123). -/
def push (a : Word) (s : State) : Option State :=
  if h : s.sp.val < 16 then
    some { s with stack := s.stack.set s.sp.val a h, sp := ⟨s.sp.val + 1, by omega⟩ }
  else none

/-- Pop a return address: `sp <- sp - 1`, `stack[sp]`, and none when the stack is empty (10_state R26, 41_flow R121). -/
def pop (s : State) : Option (Word × State) :=
  if h : s.sp.val ≠ 0 then
    some (s.stack[s.sp.val - 1]'(by omega), { s with sp := ⟨s.sp.val - 1, by omega⟩ })
  else none

/-! ### Timers -/

/-- One saturating decrement (60_exceptions R244). -/
def countDown (b : Byte) : Byte := if b = 0#8 then 0#8 else b - 1#8

/-- `DT <- b` (00_scope R9). -/
def setDt (b : Byte) (s : State) : State := { s with dt := b }

/-- `ST <- b` (00_scope R9). -/
def setSt (b : Byte) (s : State) : State := { s with st := b }

/-- `Timer_tick()` (60_exceptions R244). -/
def timerTick (s : State) : State := { s with dt := countDown s.dt, st := countDown s.st }

/-! ### Framebuffer controller -/

/-- The pixel at column x mod 64, row y mod 32 (10_state R32, 60_exceptions R251). -/
def fbGet (s : State) (x y : Nat) : Bool :=
  (s.fb[x % 64]'(Nat.mod_lt x (by decide)))[y % 32]'(Nat.mod_lt y (by decide))

/-- Write one pixel, at column x mod 64, row y mod 32. -/
def fbPut (x y : Nat) (on : Bool) (s : State) : State :=
  let column := (s.fb[x % 64]'(Nat.mod_lt x (by decide))).set (y % 32) on (Nat.mod_lt y (by decide))
  { s with fb := s.fb.set (x % 64) column (Nat.mod_lt x (by decide)) }

/-- `FB_set(x, y, on)`: XOR the cell, mark dirty, and answer whether a set pixel was turned off (60_exceptions R248). -/
def fbSet (x y : Nat) (on : Bool) (s : State) : State × Bool :=
  let old := fbGet s x y
  ({ (fbPut x y (old ^^ on) s) with dirty := true }, on && old)

/-- `FB_clear()`: every cell false, mark dirty (60_exceptions R249). -/
def fbClear (s : State) : State :=
  { s with fb := Vector.replicate 64 (Vector.replicate 32 false), dirty := true }

/-! ### Keypad unit and random source -/

/-- `Key_pressed(k)` (60_exceptions R254). -/
def keyPressed (s : State) (k : KeyIdx) : Bool := s.pressed[k.toNat]'k.isLt

/-- `Latch_consume()`: the latch, which is then none (60_exceptions R253). -/
def latchConsume (s : State) : Option KeyIdx × State := (s.latch, { s with latch := none })

/-- `key_wait <- r` (10_state R31). -/
def setKeyWait (r : Option RegIdx) (s : State) : State := { s with keyWait := r }

/-- `RNG_draw()`: a fresh free byte (60_exceptions R257); log entry 2. -/
def rngDraw (s : State) : Byte × State := (Config.rng s.rngCount, { s with rngCount := s.rngCount + 1 })

/-! ### Taking a fault -/

/-- `raise Fault(kind, pc, word, addr)`: only the `fault` register is written and the core is halted; nothing is pushed, no mode
changes and control goes to no handler (60_exceptions R238, 40_step_cycle R109, R110). -/
def raiseFault (kind : Fault) (word : Option Word) (addr : Option Nat) (s : State) : State :=
  { s with fault := some { kind := kind, pc := s.pc, word := word, addr := addr } }

/-! ### Placing an instruction where the next step fetches it -/

/-- Make the next step fetch and run `w`: place it at pc, high byte first. A step fetches only when the core is neither halted
nor waiting for a key and pc is at most 0xFFE, so a record or a key-wait is removed and a pc above 0xFFE goes to 0x200; log entry 5. -/
def placeWord (w : Word) (s : State) : State :=
  let pc : Word := if s.pc.toNat ≤ 0xFFE then s.pc else 0x200#16
  { (storeBytes pc.toNat (bytesOfWord w) s) with pc := pc, fault := none, keyWait := none }

end Sys2Proof.Machine
end

