-- ==== Sys2Proof/Machine/Operands.lean ====
section
/-! DEFINITION. Every operand form of the instruction set: immediates and addresses zero-extended (30_encoding R72), the one
addressing mode I + k with its range check (20_memory R54 to R56, 44_index_memory), the glyph address, the jump with
offset, the key index, the BCD digits and the sprite bits. -/

namespace Sys2Proof.Machine

/-- `nnn` zero-extended to the 16 bits of pc and I (30_encoding R72). -/
def addrOf (nnn : Addr12) : Word := nnn.setWidth 16

/-- `nnn + V0`, a natural sum of at most 0x10FE, which fits in 16 bits (41_flow R128). -/
def offsetTarget (nnn : Addr12) (v0 : Byte) : Word := BitVec.ofNat 16 (nnn.toNat + v0.toNat)

/-- `(I + b) mod 65536` (44_index_memory R191). -/
def indexPlus (i : Word) (b : Byte) : Word := BitVec.ofNat 16 (i.toNat + b.toNat)

/-- The base address of the glyph for digit `b`: b × 5, at most 1275, with no mask (44_index_memory R192). -/
def glyphAddr (b : Byte) : Word := BitVec.ofNat 16 (b.toNat * 5)

/-- The effective address of transfer k: the natural number I + k, never reduced (20_memory R56). -/
def effAddr (s : State) (k : Nat) : Nat := s.i.toNat + k

/-- All of I, I + 1, ..., I + n - 1 are addresses of memory; true for n = 0 (20_memory R54, R55, 42_display R151). -/
def dataInRange (s : State) (n : Nat) : Bool := n == 0 || decide (s.i.toNat + (n - 1) < 4096)

/-- The lowest out-of-range address of an access that starts at I: max(I, 4096) (60_exceptions R235). -/
def firstBadAddr (s : State) : Nat := max s.i.toNat 4096

/-- Raise `MemoryOutOfBounds` for the instruction word `w` (60_exceptions R235). -/
def dataFault (w : Word) (s : State) : State := raiseFault .memoryOutOfBounds (some w) (some (firstBadAddr s)) s

/-- The key a register names: none for a value of 16 or more (45_keys_timers R210, 60_exceptions R236). -/
def keyOf (b : Byte) : Option KeyIdx := if b.toNat < 16 then some (b.setWidth 4) else none

/-- A key index zero-extended to a register's 8 bits (40_step_cycle R102, 45_keys_timers R213). -/
def byteOfKey (k : KeyIdx) : Byte := k.setWidth 8

/-- The hundreds, tens and ones digits (44_index_memory R193). -/
def bcdDigits (b : Byte) : List Byte :=
  [BitVec.ofNat 8 (b.toNat / 100), BitVec.ofNat 8 (b.toNat / 10 % 10), BitVec.ofNat 8 (b.toNat % 10)]

/-- V0 to Vx, inclusive (44_index_memory R194). -/
def regsUpTo (s : State) (x : RegIdx) : List Byte :=
  (List.range (x.toNat + 1)).map (fun k => getV s (BitVec.ofNat 4 k))

/-- V0 to Vx loaded from I to I + x, the registers above x unchanged (44_index_memory R195). -/
def loadUpTo (x : RegIdx) (s : State) : State :=
  { s with v := Vector.ofFn (fun k => if k.val ≤ x.toNat then readByte s (effAddr s k.val) else s.v[k.val]) }

/-- Column `col` of a sprite row: the most significant bit is the leftmost pixel (42_display R151). -/
def spriteBit (b : Byte) (col : Nat) : Bool := b.getLsbD (7 - col)

/-- Draw column `col` of the sprite row `b` whose left end is at (cx, y): a set bit toggles its pixel through `FB_set`, a clear bit
does nothing; the collisions are collected (42_display R151). -/
def drawCol (b : Byte) (cx y : Nat) (acc : State × Bool) (col : Nat) : State × Bool :=
  if spriteBit b col then
    let r := fbSet (cx + col) y true acc.1
    (r.1, acc.2 || r.2)
  else acc

/-- Draw one sprite row, columns 0 to 7 (42_display R151). -/
def drawRow (b : Byte) (cx y : Nat) (acc : State × Bool) : State × Bool :=
  (List.range 8).foldl (drawCol b cx y) acc

/-- Draw the rows 0 to n - 1 of the sprite at I with its top-left pixel at (cx, cy), and answer whether a set pixel was turned off
(42_display R151). Drawing writes no memory, so the rows are read as they were when the instruction began (00_scope R10). -/
def drawSprite (cx cy n : Nat) (s : State) : State × Bool :=
  (List.range n).foldl (fun acc row => drawRow (readByte s (effAddr s row)) cx (cy + row) acc) (s, false)

end Sys2Proof.Machine
end

