-- ==== Sys2Proof/Machine/Cycle.lean ====
section
/-! DEFINITION. The step cycle up to the execution of an instruction (40_step_cycle R100 to R113): halted, key-wait, timer
tick, stall, fetch, decode, in that order (60_exceptions R240). Machine/Step.lean only calls it. -/

namespace Sys2Proof.Machine

/-- How far a step gets before an instruction executes. -/
inductive Phase where
  /-- The step ends in this state without executing an instruction. -/
  | done (s : State)
  /-- The step executes this instruction in this state. -/
  | execute (i : Instr) (s : State)
  deriving DecidableEq, Repr

/-- The key-wait resolution: a latched key is stored in the target register, and the wait and the latch are cleared; with no latched key
nothing happens. No tick, no fetch, no look at pc (40_step_cycle R102). -/
def keyWaitStep (r : RegIdx) (s : State) : State :=
  match latchConsume s with
  | (some k, t) => setKeyWait none (setV r (byteOfKey k) t)
  | (none, _) => s

/-- Fetch and decode at pc: the stall (R104), the fetch fault (R105), the decode fault (R106), or an instruction to execute. -/
def fetchDecode (s : State) : Phase :=
  if 4096 ≤ s.pc.toNat then .done s
  else if s.pc.toNat = 0xFFF then .done (raiseFault .fetchOutOfBounds none none s)
  else
    match decodeWord (fetchWord s) with
    | .instr i => .execute i s
    | .illegal _ => .done (raiseFault .decodeError (some (fetchWord s)) none s)

/-- Everything of a step before the execution of its instruction (40_step_cycle R109). A halted core changes no state (R101). -/
def beginStep (s : State) : Phase :=
  match s.fault with
  | some _ => .done s
  | none =>
    match s.keyWait with
    | some r => .done (keyWaitStep r s)
    | none => fetchDecode (timerTick s)

/-- What `step()` returns, read off the state it leaves: none is `Continue`, otherwise the fault record, of the step that raised it and of
every later step (40_step_cycle R101, R108, 60_exceptions R237); log entry 3. -/
def stepReturn (after : State) : Option FaultRecord := after.fault

end Sys2Proof.Machine
end

