-- ==== Sys2Proof/Machine/Flags.lean ====
section
/-! DEFINITION. Every flag the spec computes into VF: carry, strict greater-than, the bit shifted out, collision
(43_alu R166 to R170, 42_display R151), and the order of the two writes (R173). -/

namespace Sys2Proof.Machine

/-- A flag as VF holds it: 1 or 0. -/
def flagByte (c : Bool) : Byte := if c then 1#8 else 0#8

/-- 1 when the sum exceeds 255 (43_alu R166). -/
def carryFlag (a b : Byte) : Byte := flagByte (decide (a.toNat + b.toNat > 255))

/-- 1 when a is strictly greater than b: the "not borrow" of `SUB` (43_alu R167) and, with the operands exchanged, of `SUBN` (R169). -/
def greaterFlag (a b : Byte) : Byte := flagByte (decide (a.toNat > b.toNat))

/-- The old bit 0 (43_alu R168). -/
def lowBitFlag (a : Byte) : Byte := flagByte (a.getLsbD 0)

/-- The old bit 7 (43_alu R170). -/
def highBitFlag (a : Byte) : Byte := flagByte (a.getLsbD 7)

/-- Write a result to V[x] first and its flag to VF last, both computed before (43_alu R173, D7): with x = 0xF the flag stays;
log entry 10. -/
def setResultAndFlag (x : RegIdx) (result flag : Byte) (s : State) : State := setV regF flag (setV x result s)

end Sys2Proof.Machine
end

