-- ==== Sys2Proof/Machine/Alu.lean ====
section
/-! DEFINITION. Register arithmetic and logic, and `RND` (43_alu R160 to R173). -/

namespace Sys2Proof.Machine

/-- `LD Vx, kk` (43_alu R160). -/
def execLdImm (x : RegIdx) (kk : Byte) (s : State) : Host.Outcome State Fault Refusal :=
  .next (next (setV x kk s))

/-- `ADD Vx, kk`: modulo 256, no flag (43_alu R161). -/
def execAddImm (x : RegIdx) (kk : Byte) (s : State) : Host.Outcome State Fault Refusal :=
  .next (next (setV x (getV s x + kk) s))

/-- `LD Vx, Vy` (43_alu R162). -/
def execLdReg (x y : RegIdx) (s : State) : Host.Outcome State Fault Refusal :=
  .next (next (setV x (getV s y) s))

/-- `OR Vx, Vy`: no flag (43_alu R163). -/
def execOrReg (x y : RegIdx) (s : State) : Host.Outcome State Fault Refusal :=
  .next (next (setV x (getV s x ||| getV s y) s))

/-- `AND Vx, Vy`: no flag (43_alu R164). -/
def execAndReg (x y : RegIdx) (s : State) : Host.Outcome State Fault Refusal :=
  .next (next (setV x (getV s x &&& getV s y) s))

/-- `XOR Vx, Vy`: no flag (43_alu R165). -/
def execXorReg (x y : RegIdx) (s : State) : Host.Outcome State Fault Refusal :=
  .next (next (setV x (getV s x ^^^ getV s y) s))

/-- `ADD Vx, Vy`: VF is the carry (43_alu R166, R173). -/
def execAddReg (x y : RegIdx) (s : State) : Host.Outcome State Fault Refusal :=
  let a := getV s x
  let b := getV s y
  .next (next (setResultAndFlag x (a + b) (carryFlag a b) s))

/-- `SUB Vx, Vy`: VF is 1 when Vx > Vy, strictly (43_alu R167, R173). -/
def execSubReg (x y : RegIdx) (s : State) : Host.Outcome State Fault Refusal :=
  let a := getV s x
  let b := getV s y
  .next (next (setResultAndFlag x (a - b) (greaterFlag a b) s))

/-- `SHR Vx`: VF is the old bit 0; y is ignored (43_alu R168, R173, 30_encoding R82). -/
def execShr (x _y : RegIdx) (s : State) : Host.Outcome State Fault Refusal :=
  let a := getV s x
  .next (next (setResultAndFlag x (a >>> 1) (lowBitFlag a) s))

/-- `SUBN Vx, Vy`: VF is 1 when Vy > Vx, strictly (43_alu R169, R173). -/
def execSubnReg (x y : RegIdx) (s : State) : Host.Outcome State Fault Refusal :=
  let a := getV s x
  let b := getV s y
  .next (next (setResultAndFlag x (b - a) (greaterFlag b a) s))

/-- `SHL Vx`: VF is the old bit 7; y is ignored (43_alu R170, R173, 30_encoding R82). -/
def execShl (x _y : RegIdx) (s : State) : Host.Outcome State Fault Refusal :=
  let a := getV s x
  .next (next (setResultAndFlag x (a <<< 1) (highBitFlag a) s))

/-- `RND Vx, kk`: a fresh free byte AND kk (43_alu R171, 60_exceptions R257); log entry 2. -/
def execRnd (x : RegIdx) (kk : Byte) (s : State) : Host.Outcome State Fault Refusal :=
  let drawn := rngDraw s
  .next (next (setV x (drawn.1 &&& kk) drawn.2))

end Sys2Proof.Machine
end

