-- ==== Sys2Proof/Machine/Display.lean ====
section
/-! DEFINITION. Display instructions (42_display R150, R151). -/

namespace Sys2Proof.Machine

/-- `CLS` (42_display R150). -/
def execCls (s : State) : Host.Outcome State Fault Refusal := .next (next (fbClear s))

/-- `DRW Vx, Vy, n`: the coordinates are read first, the sprite is drawn, VF is written last; `MemoryOutOfBounds` before any effect
when a sprite byte lies outside memory (42_display R151). -/
def execDrw (x y : RegIdx) (n : Nibble) (s : State) : Host.Outcome State Fault Refusal :=
  if dataInRange s n.toNat then
    let drawn := drawSprite (getV s x).toNat (getV s y).toNat n.toNat s
    .next (next (setV regF (flagByte drawn.2) drawn.1))
  else .next (dataFault (encode (.drw x y n)) s)

end Sys2Proof.Machine
end

