-- ==== Sys2Proof/Machine/Flow.lean ====
section
/-! DEFINITION. Control flow and skips (41_flow R120 to R128). -/

namespace Sys2Proof.Machine

/-- `SYS nnn`: advance pc by 2, nothing else; nnn is ignored (41_flow R120). -/
def execSys (_nnn : Addr12) (s : State) : Host.Outcome State Fault Refusal := .next (next s)

/-- `RET`: pop the stack into pc; `StackUnderflow` at sp = 0 (41_flow R121). -/
def execRet (s : State) : Host.Outcome State Fault Refusal :=
  match pop s with
  | some (a, t) => .next (setPc a t)
  | none => .next (raiseFault .stackUnderflow (some (encode .ret)) none s)

/-- `JP nnn` (41_flow R122). -/
def execJp (nnn : Addr12) (s : State) : Host.Outcome State Fault Refusal := .next (setPc (addrOf nnn) s)

/-- `CALL nnn`: push pc + 2 and set pc; `StackOverflow` at sp = 16 (41_flow R123). -/
def execCall (nnn : Addr12) (s : State) : Host.Outcome State Fault Refusal :=
  match push (s.pc + 2#16) s with
  | some t => .next (setPc (addrOf nnn) t)
  | none => .next (raiseFault .stackOverflow (some (encode (.call nnn))) none s)

/-- `SE Vx, kk` (41_flow R124). -/
def execSeImm (x : RegIdx) (kk : Byte) (s : State) : Host.Outcome State Fault Refusal :=
  .next (skipIf (getV s x == kk) s)

/-- `SNE Vx, kk` (41_flow R125). -/
def execSneImm (x : RegIdx) (kk : Byte) (s : State) : Host.Outcome State Fault Refusal :=
  .next (skipIf (getV s x != kk) s)

/-- `SE Vx, Vy` (41_flow R126). -/
def execSeReg (x y : RegIdx) (s : State) : Host.Outcome State Fault Refusal :=
  .next (skipIf (getV s x == getV s y) s)

/-- `SNE Vx, Vy` (41_flow R127). -/
def execSneReg (x y : RegIdx) (s : State) : Host.Outcome State Fault Refusal :=
  .next (skipIf (getV s x != getV s y) s)

/-- `JP V0, nnn`: always V0, a natural sum (41_flow R128). -/
def execJpV0 (nnn : Addr12) (s : State) : Host.Outcome State Fault Refusal :=
  .next (setPc (offsetTarget nnn (getV s 0)) s)

end Sys2Proof.Machine
end

