-- ==== Sys2Proof/Machine/IndexMem.lean ====
section
/-! DEFINITION. Index register and memory transfer (44_index_memory R190 to R195). I is changed only by the three
instructions that set it (D9). -/

namespace Sys2Proof.Machine

/-- `LD I, nnn` (44_index_memory R190). -/
def execLdI (nnn : Addr12) (s : State) : Host.Outcome State Fault Refusal :=
  .next (next (setI (addrOf nnn) s))

/-- `ADD I, Vx`: 16-bit add, no flag (44_index_memory R191). -/
def execAddI (x : RegIdx) (s : State) : Host.Outcome State Fault Refusal :=
  .next (next (setI (indexPlus s.i (getV s x)) s))

/-- `LD F, Vx`: I = Vx × 5, no mask (44_index_memory R192). -/
def execLdF (x : RegIdx) (s : State) : Host.Outcome State Fault Refusal :=
  .next (next (setI (glyphAddr (getV s x)) s))

/-- `LD B, Vx`: the decimal digits at I, I + 1, I + 2; `MemoryOutOfBounds` before any write (44_index_memory R193). -/
def execLdB (x : RegIdx) (s : State) : Host.Outcome State Fault Refusal :=
  if dataInRange s 3 then
    .next (next (storeBytes (effAddr s 0) (bcdDigits (getV s x)) s))
  else .next (dataFault (encode (.ldB x)) s)

/-- `LD [I], Vx`: V0 to Vx stored from I on; `MemoryOutOfBounds` before any write (44_index_memory R194). -/
def execStoreRegs (x : RegIdx) (s : State) : Host.Outcome State Fault Refusal :=
  if dataInRange s (x.toNat + 1) then
    .next (next (storeBytes (effAddr s 0) (regsUpTo s x) s))
  else .next (dataFault (encode (.storeRegs x)) s)

/-- `LD Vx, [I]`: V0 to Vx loaded from I on; `MemoryOutOfBounds` before any write (44_index_memory R195). -/
def execLoadRegs (x : RegIdx) (s : State) : Host.Outcome State Fault Refusal :=
  if dataInRange s (x.toNat + 1) then
    .next (next (loadUpTo x s))
  else .next (dataFault (encode (.loadRegs x)) s)

end Sys2Proof.Machine
end

