-- ==== Sys2Proof/Machine/KeysTimers.lean ====
section
/-! DEFINITION. Keypad and timer instructions (45_keys_timers R210 to R215). The step's timer tick came before
(40_step_cycle R103): it is the step cycle's (Machine/Cycle.lean), not the instruction's. -/

namespace Sys2Proof.Machine

/-- `SKP Vx`: skip if the key V[x] is pressed; `KeyIndexOutOfRange` when V[x] names no key (45_keys_timers R210). -/
def execSkp (x : RegIdx) (s : State) : Host.Outcome State Fault Refusal :=
  match keyOf (getV s x) with
  | some k => .next (skipIf (keyPressed s k) s)
  | none => .next (raiseFault .keyIndexOutOfRange (some (encode (.skp x))) none s)

/-- `SKNP Vx`: skip if the key V[x] is not pressed; `KeyIndexOutOfRange` when V[x] names no key (45_keys_timers R211). -/
def execSknp (x : RegIdx) (s : State) : Host.Outcome State Fault Refusal :=
  match keyOf (getV s x) with
  | some k => .next (skipIf (!keyPressed s k) s)
  | none => .next (raiseFault .keyIndexOutOfRange (some (encode (.sknp x))) none s)

/-- `LD Vx, DT` (45_keys_timers R212). -/
def execLdVxDt (x : RegIdx) (s : State) : Host.Outcome State Fault Refusal :=
  .next (next (setV x s.dt s))

/-- `LD Vx, K`: enter the key-wait state with target x and advance pc; the latch is not touched (45_keys_timers R213). -/
def execLdVxK (x : RegIdx) (s : State) : Host.Outcome State Fault Refusal :=
  .next (next (setKeyWait (some x) s))

/-- `LD DT, Vx` (45_keys_timers R214). -/
def execLdDtVx (x : RegIdx) (s : State) : Host.Outcome State Fault Refusal :=
  .next (next (setDt (getV s x) s))

/-- `LD ST, Vx` (45_keys_timers R215). -/
def execLdStVx (x : RegIdx) (s : State) : Host.Outcome State Fault Refusal :=
  .next (next (setSt (getV s x) s))

end Sys2Proof.Machine
end

