-- ==== Sys2Proof/Machine/Step.lean ====
section
/-! DEFINITION. One step of the core (40_step_cycle R100, R109) and the placing of an instruction for the next step. -/

namespace Sys2Proof.Machine

/-- `step()` (40_step_cycle R109). -/
def step (s : State) : Host.Outcome State Fault Refusal :=
  match beginStep s with
  | .done t => .next t
  | .execute i t => exec i t

/-- `s` with the table word stored where the next step fetches it (log entry 5). -/
def State.withFetchWord (s : State) (nbits w : Nat) : State := placeWord (tableWord nbits w) s

end Sys2Proof.Machine
end

