-- ==== Sys2Proof/Machine/Ports.lean ====
section
/-! DEFINITION. The host interface (60_exceptions R258): everything the host can do to the core, each between two steps (R259).
A list of these operations is one schedule of the host, its extra timer ticks among them: the open parameter
`HOST_TIMER_TICKS` (00_scope R6, 60_exceptions R245) is any such list; log entry 6. -/

namespace Sys2Proof.Machine

/-- `key_event(k, p)`: the press flag is set to p; a release transition overwrites the latch (60_exceptions R252, D16). An index above 15
is refused (R260, D17). -/
def keyEvent (k : Nat) (p : Bool) (s : State) : Host.Outcome State Fault Refusal :=
  if h : k < 16 then
    .next { s with
      pressed := s.pressed.set k p h
      latch := if !p && s.pressed[k] then some (BitVec.ofNat 4 k) else s.latch }
  else .refused (.keyEventIndex k)

/-- `consume_dirty()`: the dirty flag, which is then false (60_exceptions R250). -/
def consumeDirty (s : State) : Bool × State := (s.dirty, { s with dirty := false })

/-- `fb_read(x, y)`: one pixel (60_exceptions R251, R258). -/
def fbRead (x : Fin 64) (y : Fin 32) (s : State) : Bool := fbGet s x.val y.val

/-- `sound_value()`: ST; non-zero means a tone (60_exceptions R247). -/
def soundValue (s : State) : Byte := s.st

/-- The keypad's layout, row by row: the host applies it to its own keys before it sends an event (60_exceptions R255). -/
def keypadLayout : List (List KeyIdx) := [[0x1, 0x2, 0x3, 0xC], [0x4, 0x5, 0x6, 0xD], [0x7, 0x8, 0x9, 0xE], [0xA, 0x0, 0xB, 0xF]]

/-- What the host can do (60_exceptions R258). `rng_byte` is no operation of its own: `RND` takes it as a free value (R257). -/
inductive HostOp where
  /-- `reset(image)` (70_reset R280). -/
  | reset (image : List Byte)
  /-- `step()` (40_step_cycle R100). -/
  | step
  /-- `key_event(k, p)` (R252). -/
  | keyEvent (k : Nat) (p : Bool)
  /-- `timer_tick()` (R245). -/
  | timerTick
  /-- `consume_dirty()` (R250). -/
  | consumeDirty
  /-- `fb_read(x, y)` (R251). -/
  | fbRead (x : Fin 64) (y : Fin 32)
  /-- `sound_value()` (R247). -/
  | soundValue
  deriving DecidableEq, Repr

/-- The state a host operation leaves. Reset keeps only the model's own count of random draws, so that no draw is repeated
(log entry 2); nothing of the spec's state survives it (70_reset R282). -/
def hostOp (op : HostOp) (s : State) : Host.Outcome State Fault Refusal :=
  match op with
  | .reset image => .next { (resetImage image) with rngCount := s.rngCount }
  | .step => step s
  | .keyEvent k p => keyEvent k p s
  | .timerTick => .next (timerTick s)
  | .consumeDirty => .next (consumeDirty s).2
  | .fbRead _ _ => .next s
  | .soundValue => .next s

/-- What the core returns for a host operation. -/
inductive Reply where
  /-- Nothing. -/
  | nothing
  /-- `Continue` (none) or the fault record, for `step()` (40_step_cycle R108). -/
  | stepped (record : Option FaultRecord)
  /-- The old dirty flag. -/
  | dirtyWas (b : Bool)
  /-- One pixel. -/
  | pixel (on : Bool)
  /-- The sound timer. -/
  | sound (st : Byte)
  deriving DecidableEq, Repr

/-- The reply to an operation, from the state before and the state after it (60_exceptions R258, last column). -/
def hostReply (op : HostOp) (before after : State) : Reply :=
  match op with
  | .reset _ => .nothing
  | .step => .stepped (stepReturn after)
  | .keyEvent _ _ => .nothing
  | .timerTick => .nothing
  | .consumeDirty => .dirtyWas (consumeDirty before).1
  | .fbRead x y => .pixel (fbRead x y before)
  | .soundValue => .sound (soundValue before)

/-- A schedule of host operations, ending early at the first one the model refuses. -/
def hostRun : List HostOp → State → Host.Outcome State Fault Refusal
  | [], s => .next s
  | op :: ops, s =>
    match hostOp op s with
    | .next t => hostRun ops t
    | .fault r => .fault r
    | .refused r => .refused r

end Sys2Proof.Machine
end

