-- ==== Sys2Proof/Safety.lean ====
section
/-! DEFINITION. The terms claims use: the state classes of a run (70_reset R293), the parts of the state and what a step
leaves unchanged, the writer table (10_state R38), and the invariant of every run (10_state R24, R26, R35). -/

namespace Sys2Proof.Machine

/-! ### State classes -/

/-- The classes of 70_reset R293, each a function of the state alone. -/
inductive RunClass where
  /-- `fault` is set: no further step changes anything; a failed end. -/
  | halted
  /-- No fault, no key-wait, pc of 4096 or more: only DT and ST still change. -/
  | stalled
  /-- A key-wait with no latched key. -/
  | waiting
  /-- Any other state. -/
  | running
  deriving DecidableEq, Repr

/-- The class of a state (70_reset R293). -/
def runClass (s : State) : RunClass :=
  if s.fault.isSome then .halted
  else if s.keyWait.isSome then (if s.latch.isNone then .waiting else .running)
  else if 4096 ≤ s.pc.toNat then .stalled
  else .running

/-- The step of this state fetches: it is neither halted nor waiting and pc is at most 0xFFE (40_step_cycle R101 to R105). -/
def Fetches (s : State) : Prop := s.fault = none ∧ s.keyWait = none ∧ s.pc.toNat ≤ 0xFFE

/-- A safe state: no fault has been raised (60_exceptions R237, 70_reset R293 "a failed end"). -/
def Safe (s : State) : Prop := s.fault = none

/-! ### Parts of the state and frames -/

/-- The smallest parts of the state a claim speaks of. -/
inductive Part where
  | v (x : RegIdx)
  | i
  | pc
  | sp
  | stack (j : Fin 16)
  | dt
  | st
  | pressed (k : KeyIdx)
  | latch
  | keyWait
  | pixel (x : Fin 64) (y : Fin 32)
  | dirty
  | byte (a : Nat)
  | fault
  | rngCount
  deriving DecidableEq, Repr

/-- The part reads the same in both states; a byte of memory through the model's read of one byte. -/
def Kept (p : Part) (s t : State) : Prop :=
  match p with
  | .v x => getV t x = getV s x
  | .i => t.i = s.i
  | .pc => t.pc = s.pc
  | .sp => t.sp = s.sp
  | .stack j => t.stack[j.val] = s.stack[j.val]
  | .dt => t.dt = s.dt
  | .st => t.st = s.st
  | .pressed k => keyPressed t k = keyPressed s k
  | .latch => t.latch = s.latch
  | .keyWait => t.keyWait = s.keyWait
  | .pixel x y => fbGet t x.val y.val = fbGet s x.val y.val
  | .dirty => t.dirty = s.dirty
  | .byte a => readByte t a = readByte s a
  | .fault => t.fault = s.fault
  | .rngCount => t.rngCount = s.rngCount

/-- The frame: every part outside `written` is unchanged. -/
def OnlyWrites (written : Part → Prop) (s t : State) : Prop := ∀ p, ¬ written p → Kept p s t

/-- The byte addresses I, I + 1, ..., I + n - 1, as `effAddr` gives them (20_memory R56, R60). -/
def AtIndex (s : State) (n : Nat) (p : Part) : Prop := ∃ k, k < n ∧ p = .byte (effAddr s k)

/-- The writer table of 10_state R38, one row per instruction: what the instruction may write when it executes in `s`. pc is in every row
(R38 "every executed instruction"), and `fault` in the rows of the instructions that have a fault of their own (60_exceptions R240). -/
def mayWrite (i : Instr) (s : State) (p : Part) : Prop :=
  p = .pc ∨
  match i with
  | .sys _ => False
  | .cls => (∃ x y, p = .pixel x y) ∨ p = .dirty
  | .ret => p = .sp ∨ p = .fault
  | .jp _ => False
  | .call _ => p = .sp ∨ (∃ j, p = .stack j ∧ j.val = s.sp.val) ∨ p = .fault
  | .seImm _ _ => False
  | .sneImm _ _ => False
  | .seReg _ _ => False
  | .ldImm x _ => p = .v x
  | .addImm x _ => p = .v x
  | .ldReg x _ => p = .v x
  | .orReg x _ => p = .v x
  | .andReg x _ => p = .v x
  | .xorReg x _ => p = .v x
  | .addReg x _ => p = .v x ∨ p = .v regF
  | .subReg x _ => p = .v x ∨ p = .v regF
  | .shr x _ => p = .v x ∨ p = .v regF
  | .subnReg x _ => p = .v x ∨ p = .v regF
  | .shl x _ => p = .v x ∨ p = .v regF
  | .sneReg _ _ => False
  | .ldI _ => p = .i
  | .jpV0 _ => False
  | .rnd x _ => p = .v x ∨ p = .rngCount
  | .drw _ _ _ => p = .v regF ∨ (∃ x y, p = .pixel x y) ∨ p = .dirty ∨ p = .fault
  | .skp _ => p = .fault
  | .sknp _ => p = .fault
  | .ldVxDt x => p = .v x
  | .ldVxK _ => p = .keyWait
  | .ldDtVx _ => p = .dt
  | .ldStVx _ => p = .st
  | .addI _ => p = .i
  | .ldF _ => p = .i
  | .ldB _ => AtIndex s 3 p ∨ p = .fault
  | .storeRegs x => AtIndex s (x.toNat + 1) p ∨ p = .fault
  | .loadRegs x => (∃ r : RegIdx, r ≤ x ∧ p = .v r) ∨ p = .fault

/-- The one fault kind an instruction can raise itself (60_exceptions R240). -/
def ownFault (i : Instr) : Option Fault :=
  match i with
  | .ret => some .stackUnderflow
  | .call _ => some .stackOverflow
  | .drw _ _ _ => some .memoryOutOfBounds
  | .skp _ => some .keyIndexOutOfRange
  | .sknp _ => some .keyIndexOutOfRange
  | .ldB _ => some .memoryOutOfBounds
  | .storeRegs _ => some .memoryOutOfBounds
  | .loadRegs _ => some .memoryOutOfBounds
  | .sys _ => none
  | .cls => none
  | .jp _ => none
  | .seImm _ _ => none
  | .sneImm _ _ => none
  | .seReg _ _ => none
  | .ldImm _ _ => none
  | .addImm _ _ => none
  | .ldReg _ _ => none
  | .orReg _ _ => none
  | .andReg _ _ => none
  | .xorReg _ _ => none
  | .addReg _ _ => none
  | .subReg _ _ => none
  | .shr _ _ => none
  | .subnReg _ _ => none
  | .shl _ _ => none
  | .sneReg _ _ => none
  | .ldI _ => none
  | .jpV0 _ => none
  | .rnd _ _ => none
  | .ldVxDt _ => none
  | .ldVxK _ => none
  | .ldDtVx _ => none
  | .ldStVx _ => none
  | .addI _ => none
  | .ldF _ => none

/-- pc after an instruction that does not fault (40_step_cycle R107): the target of `JP`, `CALL`, `RET` and `JP V0`, pc + 4 or pc + 2 for the
skips, pc + 2 for every other instruction. -/
def pcAfter (i : Instr) (s : State) : Nat :=
  match i with
  | .jp nnn => nnn.toNat
  | .call nnn => nnn.toNat
  | .ret => (s.stack[s.sp.val - 1]'(by omega)).toNat
  | .jpV0 nnn => nnn.toNat + (getV s 0).toNat
  | .seImm x kk => if getV s x = kk then (s.pc + 4).toNat else (s.pc + 2).toNat
  | .sneImm x kk => if getV s x ≠ kk then (s.pc + 4).toNat else (s.pc + 2).toNat
  | .seReg x y => if getV s x = getV s y then (s.pc + 4).toNat else (s.pc + 2).toNat
  | .sneReg x y => if getV s x ≠ getV s y then (s.pc + 4).toNat else (s.pc + 2).toNat
  | .skp x => if keyPressed s ((getV s x).setWidth 4) = true then (s.pc + 4).toNat else (s.pc + 2).toNat
  | .sknp x => if keyPressed s ((getV s x).setWidth 4) = false then (s.pc + 4).toNat else (s.pc + 2).toNat
  | .sys _ => (s.pc + 2).toNat
  | .cls => (s.pc + 2).toNat
  | .ldImm _ _ => (s.pc + 2).toNat
  | .addImm _ _ => (s.pc + 2).toNat
  | .ldReg _ _ => (s.pc + 2).toNat
  | .orReg _ _ => (s.pc + 2).toNat
  | .andReg _ _ => (s.pc + 2).toNat
  | .xorReg _ _ => (s.pc + 2).toNat
  | .addReg _ _ => (s.pc + 2).toNat
  | .subReg _ _ => (s.pc + 2).toNat
  | .shr _ _ => (s.pc + 2).toNat
  | .subnReg _ _ => (s.pc + 2).toNat
  | .shl _ _ => (s.pc + 2).toNat
  | .ldI _ => (s.pc + 2).toNat
  | .rnd _ _ => (s.pc + 2).toNat
  | .drw _ _ _ => (s.pc + 2).toNat
  | .ldVxDt _ => (s.pc + 2).toNat
  | .ldVxK _ => (s.pc + 2).toNat
  | .ldDtVx _ => (s.pc + 2).toNat
  | .ldStVx _ => (s.pc + 2).toNat
  | .addI _ => (s.pc + 2).toNat
  | .ldF _ => (s.pc + 2).toNat
  | .ldB _ => (s.pc + 2).toNat
  | .storeRegs _ => (s.pc + 2).toNat
  | .loadRegs _ => (s.pc + 2).toNat

/-! ### The sprite a draw toggles -/

/-- The sprite bit that falls on pixel (px, py) when the n rows at I are drawn with their top-left pixel at (cx, cy): the column and row
offsets are taken modulo the grid, so a sprite wraps at its edges (42_display R151). -/
def spriteAt (s : State) (cx cy n : Nat) (px : Fin 64) (py : Fin 32) : Bool :=
  let col := (px.val + 64 - cx % 64) % 64
  let row := (py.val + 32 - cy % 32) % 32
  decide (col < 8) && decide (row < n) && spriteBit (readByte s (effAddr s row)) col

/-! ### The invariant of every run -/

/-- The shape of a fault record (10_state R35, 60_exceptions R231 to R236): no word only for a fetch fault, an address of 4096 to 0xFFFF
exactly for a data fault, and the pc of a byte of memory. -/
def FaultRecord.Shaped (r : FaultRecord) : Prop :=
  (r.word = none ↔ r.kind = .fetchOutOfBounds) ∧
  (r.kind ≠ .memoryOutOfBounds → r.addr = none) ∧
  (r.kind = .memoryOutOfBounds → ∃ a, r.addr = some a ∧ 4096 ≤ a ∧ a ≤ 0xFFFF) ∧
  r.pc.toNat ≤ 0xFFF

/-- What every run keeps. -/
structure Inv (s : State) : Prop where
  /-- Memory has its canonical form. -/
  mem_wf : Memory.wf s.mem
  /-- pc never exceeds 0x10FE (10_state R24). -/
  pc_le : s.pc.toNat ≤ 0x10FE
  /-- A pushed return address is at most 0x1000 (10_state R24). -/
  stack_le : ∀ j : Fin 16, s.stack[j.val].toNat ≤ 0x1000
  /-- A fault record has the shape of R35 and holds the pc the core halted at (40_step_cycle R107, R110). -/
  fault_ok : ∀ r, s.fault = some r → r.Shaped ∧ r.pc = s.pc

/-- The states a run can reach: reset with some image, then any host operations the model does not refuse (60_exceptions R258). -/
inductive Reachable : State → Prop where
  | reset (image : List Byte) : Reachable (resetImage image)
  | op {s t : State} (o : HostOp) (h : Reachable s) (ho : hostOp o s = .next t) : Reachable t

/-- The states differ at most in what no instruction reads: ST and the dirty flag (10_state R28, R33, 60_exceptions R246). -/
def SameButSoundAndDirty (s t : State) : Prop := { s with st := 0, dirty := false } = { t with st := 0, dirty := false }

end Sys2Proof.Machine
end

