-- ==== Sys2Proof/Certificates/Slice0/Obligations.lean ====
section
/-! DEFINITION. The statements for the provers. Each formalises what the spec says an instruction or the machine does; the
docstring names the rules. `OnlyWrites` is the frame: every part of the state outside the set reads as before, each byte of memory
through `readByte`, each register through `getV`, each pixel through `fbGet`. -/

open Sys2Proof Sys2Proof.Machine

/-! ### Encoding and decoding -/

/-- 30_encoding section 2: words written out from the opcode map, one or more per family, and one illegal word per group that has any.
0x0000 is illegal by the spec's decision D6 (log entry 8); 8AB5, 8AB7 and 8008 rest on the 0x8 sub-opcode values, the spec's general knowledge (D29, 93 G2; log entry 9). -/
def Obligations.WordsWrittenOutFromTheMapDecode : Prop :=
  decodeWord 0x0123 = .instr (.sys 0x123) ∧ decodeWord 0x00E0 = .instr .cls ∧ decodeWord 0x00EE = .instr .ret ∧
  decodeWord 0x1ABC = .instr (.jp 0xABC) ∧ decodeWord 0x3A5C = .instr (.seImm 0xA 0x5C) ∧
  decodeWord 0x5AB0 = .instr (.seReg 0xA 0xB) ∧ decodeWord 0x7A5C = .instr (.addImm 0xA 0x5C) ∧
  decodeWord 0x8AB5 = .instr (.subReg 0xA 0xB) ∧ decodeWord 0x8AB7 = .instr (.subnReg 0xA 0xB) ∧
  decodeWord 0xA9BC = .instr (.ldI 0x9BC) ∧ decodeWord 0xDAB5 = .instr (.drw 0xA 0xB 0x5) ∧
  decodeWord 0xEA9E = .instr (.skp 0xA) ∧ decodeWord 0xFA15 = .instr (.ldDtVx 0xA) ∧
  decodeWord 0xFA55 = .instr (.storeRegs 0xA) ∧
  decodeWord 0x0000 = .illegal (.group0 0x0000) ∧ decodeWord 0x5121 = .illegal (.group5 0x5121) ∧
  decodeWord 0x8008 = .illegal (.group8 0x8008) ∧ decodeWord 0x912F = .illegal (.group9 0x912F) ∧
  decodeWord 0xE09F = .illegal (.groupE 0xE09F) ∧ decodeWord 0xF000 = .illegal (.groupF 0xF000)

/-- 30_encoding sections 1 to 3 (R70, R73, R82, R83): the well-formed instructions and the legal words are in one-to-one correspondence, the
decoder consumes exactly two bytes whatever follows, and no bit of a word is dropped. -/
def Obligations.WellFormedInstructionsAndLegalWordsCorrespond : Prop :=
  (∀ (i : Instr) (rest : List Byte), i.wellFormed = true → decodeBytes (encodeBytes i ++ rest) = (.instr i, rest)) ∧
  (∀ (w : Word) (i : Instr), decodeWord w = .instr i → i.wellFormed = true ∧ encode i = w)

/-- 30_encoding sections 2 and 3 (R74 to R78, R80): the illegal words are exactly the listed ones. The reading of group 0 is the spec's
decision D6 (log entry 8), the values of group 8 its general knowledge (log entry 9). -/
def Obligations.IllegalWordsAreExactlyTheListedOnes : Prop :=
  ∀ w : Word, (∃ why, decodeWord w = .illegal why) ↔
    (fieldOp w = 0x0 ∧ fieldX w = 0 ∧ w ≠ 0x00E0 ∧ w ≠ 0x00EE) ∨
    ((fieldOp w = 0x5 ∨ fieldOp w = 0x9) ∧ fieldN w ≠ 0) ∨
    (fieldOp w = 0x8 ∧ fieldN w ∈ [0x8, 0x9, 0xA, 0xB, 0xC, 0xD, 0xF]) ∨
    (fieldOp w = 0xE ∧ fieldKk w ∉ [0x9E, 0xA1]) ∨
    (fieldOp w = 0xF ∧ fieldKk w ∉ [0x07, 0x0A, 0x15, 0x18, 0x1E, 0x29, 0x33, 0x55, 0x65])

/-- 30_encoding R79: every word of these groups is legal. -/
def Obligations.GroupsWithoutSubOpcodeAreWhollyLegal : Prop :=
  ∀ w : Word, fieldOp w ∈ [0x1, 0x2, 0x3, 0x4, 0x6, 0x7, 0xA, 0xB, 0xC, 0xD] → ∃ i, decodeWord w = .instr i

/-! ### Reset -/

/-- 10_state section 9, 70_reset section 1 (R37, R280): every item after reset with any image. The values of latch, key_wait, dirty and
fault are the spec's decision D15 (log entry 13); the font bytes are the parameter FONT (log entry 1). -/
def Obligations.ResetLeavesEveryItemAtItsResetValue : Prop :=
  ∀ image : List Byte, let s := resetImage image
    (∀ r, getV s r = 0) ∧ s.i = 0 ∧ s.pc = 0x200 ∧ s.sp.val = 0 ∧ (∀ j : Fin 16, s.stack[j.val] = 0) ∧
    s.dt = 0 ∧ s.st = 0 ∧ (∀ k, keyPressed s k = false) ∧ s.latch = none ∧ s.keyWait = none ∧
    (∀ x y, fbGet s x y = false) ∧ s.dirty = false ∧ s.fault = none ∧
    (∀ a (h : a < 80), readByte s a = Config.font[a]) ∧
    (∀ a, 80 ≤ a → a < 0x200 → readByte s a = 0) ∧
    (∀ a, 0x200 ≤ a → a < 4096 → readByte s a = image.getD (a - 0x200) 0)

/-- 70_reset R281: an oversize image is cut to its first 3584 bytes without error; the empty image is legal, memory from 0x200 is then all zero, and
the first step raises DecodeError on the word 0x0000. -/
def Obligations.OversizeImageIsCutAndEmptyImageFaults : Prop :=
  (∀ image extra : List Byte, image.length = 3584 →
    resetImage (image ++ extra) = resetImage image ∧ (resetImage (image ++ extra)).fault = none) ∧
  (∀ a, 0x200 ≤ a → readByte (resetImage []) a = 0) ∧
  (∃ t, step (resetImage []) = .next t ∧ t.fault = some ⟨.decodeError, 0x200, some 0x0000, none⟩)

/-! ### Invariants and whole-machine rules -/

/-- The invariant holds at State.reset (10_state R24, R35, R37). -/
def Obligations.ResetStateMeetsTheInvariant : Prop := Inv State.reset

/-- Every step keeps the invariant, from every state that meets it: memory stays canonical, pc stays at most 0x10FE, every return address stays at
most 0x1000, and a fault record has its shape and the halted pc (10_state R24, R35; 40_step_cycle R110). -/
def Obligations.EveryStepKeepsTheInvariant : Prop :=
  ∀ s t : State, Inv s → step s = .next t → Inv t

/-- Every host operation keeps the invariant, from every state that meets it, and reset with any image gives it; so every state that any image and any
schedule of host operations reach meets it (60_exceptions R258, R245: the open schedule HOST_TIMER_TICKS among them; 10_state R24). -/
def Obligations.EveryHostOperationKeepsTheInvariant : Prop :=
  (∀ (op : HostOp) (s t : State), Inv s → hostOp op s = .next t → Inv t) ∧
  (∀ image : List Byte, Inv (resetImage image)) ∧
  (∀ s : State, Reachable s → Inv s)

/-- A step always answers a next state: it never stops and is never refused (40_step_cycle R108 "The core never returns stop", 70_reset R293). That a
fault is a next state with its record is the model's reading, log entry 3. -/
def Obligations.EveryStepAnswersANextState : Prop := ∀ s : State, ∃ t, step s = .next t

/-- 40_step_cycle R107: the step executes the decoded instruction, after the one timer tick of the spec's decision D1 (R103, log entry 6), and every instruction leaves pc as the rule says: its target, pc + 4 or pc + 2, or its
own pc when it faults. -/
def Obligations.EveryInstructionLeavesPcAsItsRuleSays : Prop :=
  (∀ (s : State) (i : Instr), Fetches s → decodeWord (fetchWord s) = .instr i → step s = exec i (timerTick s)) ∧
  ∀ (i : Instr) (s t : State), s.fault = none → exec i s = .next t →
    (t.fault = none → t.pc.toNat = pcAfter i s) ∧ (t.fault ≠ none → t.pc = s.pc)

/-- 40_step_cycle R110, 60_exceptions R238, R240 (decision D11): an instruction that faults writes the fault record and nothing else, the record
holds its own pc, its word and its one fault kind, and max(I, 4096) for a data fault. -/
def Obligations.EveryInstructionFaultIsPrecise : Prop :=
  ∀ (i : Instr) (s t : State), s.fault = none → exec i s = .next t → t.fault ≠ none →
    ∃ kind, ownFault i = some kind ∧
      t = { s with fault := some ⟨kind, s.pc, some (encode i),
                    if kind = .memoryOutOfBounds then some (max s.i.toNat 4096) else none⟩ }

/-- 10_state section 10 (R38): no instruction writes anything outside its row of the writer table `mayWrite`. -/
def Obligations.EveryInstructionWritesOnlyItsTableRow : Prop :=
  ∀ (i : Instr) (s t : State), exec i s = .next t → OnlyWrites (mayWrite i s) s t

/-- 10_state R28, R33, 60_exceptions R246: no instruction reads ST or the dirty flag, so two states that differ only there step to states that differ
only there, WHERE BOTH RUNS TAKE THE SAME DRAWN BYTE: in a step that executes RND the two states have equal draw counts, and equal counts give the same free byte, which
is the model's own choice (log entry 2, DESIGN CHOICE; the spec's decision D13, R257, relates no two draws). It says nothing of two independent draws. -/
def Obligations.NoStepReadsSoundTimerOrDirtyFlag : Prop :=
  ∀ s t s' : State, SameButSoundAndDirty s t → step s = .next s' →
    ∃ t', step t = .next t' ∧ SameButSoundAndDirty s' t'

/-- 10_state R30, R31, R38, 60_exceptions R252, R253: in a step, key_wait changes only by LD Vx, K, which sets it to x, and by the key-wait resolution, which
clears it, and the latch only by that resolution, which consumes it. Among the other host operations only reset writes key_wait, and only reset and the
release of a pressed key, which latches that key (the spec's decision D16, log entry 18), write the latch. -/
def Obligations.KeyWaitAndLatchHaveTheirNamedWritersOnly : Prop :=
  (∀ s t : State, step s = .next t →
    (t.keyWait ≠ s.keyWait →
      (∃ x, Fetches s ∧ decodeWord (fetchWord s) = .instr (.ldVxK x) ∧ t.keyWait = some x) ∨
      (s.keyWait ≠ none ∧ s.latch ≠ none ∧ t.keyWait = none ∧ t.latch = none)) ∧
    (t.latch ≠ s.latch → s.fault = none ∧ s.keyWait ≠ none ∧ t.latch = none)) ∧
  (∀ (op : HostOp) (s t : State), op ≠ .step → hostOp op s = .next t →
    (t.keyWait ≠ s.keyWait → ∃ image, op = .reset image) ∧
    (t.latch ≠ s.latch → (∃ image, op = .reset image) ∨
      ∃ k : KeyIdx, op = .keyEvent k.toNat false ∧ keyPressed s k = true ∧ t.latch = some k))

/-- 60_exceptions R250: consume_dirty returns the dirty flag and clears it, and nothing else; no instruction calls it, so no step clears the flag. -/
def Obligations.ConsumeDirtyReturnsAndClearsTheDirtyFlag : Prop :=
  (∀ s : State, (consumeDirty s).1 = s.dirty ∧ (consumeDirty s).2.dirty = false ∧
    OnlyWrites (· = .dirty) s (consumeDirty s).2) ∧
  (∀ s t : State, step s = .next t → s.dirty = true → t.dirty = true)

/-- 10_state R33, R38, 60_exceptions R258: no host operation other than consume_dirty and reset clears a dirty flag that is set: not a step, a key event, a host
tick, a pixel read or a sound read. -/
def Obligations.OnlyConsumeDirtyAndResetClearTheDirtyFlag : Prop :=
  ∀ (op : HostOp) (s t : State), (∀ image, op ≠ .reset image) → op ≠ .consumeDirty → hostOp op s = .next t →
    s.dirty = true → t.dirty = true

/-- 60_exceptions section 7 (R239, R258, R263), 70_reset R282, R293: under any host operations but reset a halted core keeps its record and a stalled core
its pc, and stay halted or stalled; and reset leaves nothing of the state before it (the model's own draw count apart, log entry 2). -/
def Obligations.OnlyResetLeavesTheHaltedStateAndTheStall : Prop :=
  (∀ (ops : List HostOp) (s t : State), (∀ op ∈ ops, ∀ image, op ≠ .reset image) → hostRun ops s = .next t →
    (runClass s = .halted → runClass t = .halted ∧ t.fault = s.fault ∧ t.pc = s.pc) ∧
    (runClass s = .stalled → runClass t = .stalled ∧ t.pc = s.pc)) ∧
  (∀ (image : List Byte) (s : State), ∃ t, hostOp (.reset image) s = .next t ∧
    { t with rngCount := 0 } = resetImage image)

/-! ### The step cycle -/

/-- 40_step_cycle sections of R103, R105, R106, R107, R109: when the two bytes at pc decode to a well-formed instruction, the step is its execution after
one timer tick (the tick is the spec's decision D1). -/
def Obligations.StepRunsTheDecodedInstruction : Prop :=
  ∀ (s : State) (i : Instr), Fetches s → i.wellFormed = true →
    decodeBytes [readByte s s.pc.toNat, readByte s (s.pc.toNat + 1)] = (.instr i, []) →
    step s = exec i (timerTick s)

/-- A placed table word is the very next instruction run, from every state (the model's own withFetchWord, log entry 5). -/
def Obligations.PlacedWordIsTheNextInstructionRun : Prop :=
  ∀ (s : State) (w : Nat) (i : Instr), decodeTableWord 16 w = some i →
    step (s.withFetchWord 16 w) = exec i (timerTick (s.withFetchWord 16 w))

/-- 20_memory R57: the fetched word is big-endian; the byte at pc is the high byte and holds nibble0 and nibble1. -/
def Obligations.FetchIsBigEndian : Prop :=
  ∀ s : State, s.pc.toNat ≤ 0xFFE →
    (fetchWord s).toNat = 256 * (readByte s s.pc.toNat).toNat + (readByte s (s.pc.toNat + 1)).toNat ∧
    fieldOp (fetchWord s) = (readByte s s.pc.toNat).extractLsb' 4 4 ∧
    fieldX (fetchWord s) = (readByte s s.pc.toNat).extractLsb' 0 4

/-- 40_step_cycle R101, 60_exceptions R237, R239 (decision D11): a step on a halted core changes nothing and returns the record. -/
def Obligations.HaltedStepChangesNothingAndReturnsTheRecord : Prop :=
  ∀ (s : State) (r : FaultRecord), s.fault = some r →
    ∃ t, step s = .next t ∧ t = s ∧ stepReturn t = some r

/-- 40_step_cycle R102: the key-wait resolution stores the latched key, clears the wait and consumes the latch; with no latched key nothing
happens; either way the step continues, fetches nothing, does not tick and leaves pc. -/
def Obligations.KeyWaitStepResolvesOrDoesNothing : Prop :=
  ∀ (s : State) (r : RegIdx), s.fault = none → s.keyWait = some r →
    (∀ k, s.latch = some k → ∃ t, step s = .next t ∧ (getV t r).toNat = k.toNat ∧ t.keyWait = none ∧ t.latch = none ∧
      stepReturn t = none ∧ OnlyWrites (fun p => p = .v r ∨ p = .keyWait ∨ p = .latch) s t) ∧
    (s.latch = none → step s = .next s ∧ stepReturn s = none)

/-- 40_step_cycle R104, R103 (decisions D1, D2): at pc of 4096 or more the step ticks the timers and does nothing else. -/
def Obligations.StallTicksTheTimersOnly : Prop :=
  ∀ s : State, s.fault = none → s.keyWait = none → 4096 ≤ s.pc.toNat →
    ∃ t, step s = .next t ∧ t.dt.toNat = s.dt.toNat - 1 ∧ t.st.toNat = s.st.toNat - 1 ∧ stepReturn t = none ∧
      OnlyWrites (fun p => p = .dt ∨ p = .st) s t

/-- 40_step_cycle R105, R111, 60_exceptions R234 (decision D3): at pc = 0xFFF the step raises FetchOutOfBounds with no word, after its tick. -/
def Obligations.FetchAtTheLastByteFaults : Prop :=
  ∀ s : State, s.fault = none → s.keyWait = none → s.pc.toNat = 0xFFF →
    ∃ t, step s = .next t ∧ t.fault = some ⟨.fetchOutOfBounds, 0xFFF, none, none⟩ ∧
      t.dt.toNat = s.dt.toNat - 1 ∧ t.st.toNat = s.st.toNat - 1 ∧
      OnlyWrites (fun p => p = .dt ∨ p = .st ∨ p = .fault) s t

/-- 40_step_cycle R106: the step decodes the fetched word; if it is illegal the step raises DecodeError with pc and the word, and otherwise it executes
the instruction. That the tick comes first and stays is R103 and R111 (the spec's decision D1, log entry 6), that nothing else is written R110 and R238
(decision D11, log entry 3). -/
def Obligations.IllegalWordRaisesDecodeError : Prop :=
  ∀ s : State, Fetches s →
    (∀ why, decodeWord (fetchWord s) = .illegal why →
      ∃ t, step s = .next t ∧ t.fault = some ⟨.decodeError, s.pc, some (fetchWord s), none⟩ ∧
        t.dt.toNat = s.dt.toNat - 1 ∧ t.st.toNat = s.st.toNat - 1 ∧
        OnlyWrites (fun p => p = .dt ∨ p = .st ∨ p = .fault) s t) ∧
    (∀ i, decodeWord (fetchWord s) = .instr i → step s = exec i (timerTick s))

/-- 60_exceptions R244: Timer_tick decrements each timer by one, saturating at 0, each on its own; both start at 0. -/
def Obligations.TimerTickSaturatesAtZero : Prop :=
  (∀ s : State, (timerTick s).dt.toNat = s.dt.toNat - 1 ∧ (timerTick s).st.toNat = s.st.toNat - 1 ∧
    OnlyWrites (fun p => p = .dt ∨ p = .st) s (timerTick s)) ∧
  State.reset.dt = 0 ∧ State.reset.st = 0

/-! ### Control flow -/

/-- 41_flow, SYS (R120; which words are SYS is decision D6): pc advances by 2 and nothing else changes. -/
def Obligations.SysOnlyAdvancesPc : Prop :=
  ∀ (nnn : Addr12) (s : State), ∃ t, exec (.sys nnn) s = .next t ∧ t.pc = s.pc + 2 ∧ OnlyWrites (· = .pc) s t

/-- 41_flow R122: JP nnn, encoded 0x1nnn, sets pc to nnn and nothing else. -/
def Obligations.JumpSetsPcToItsAddress : Prop :=
  ∀ (nnn : Addr12) (s : State), decodeWord (0x1#4 ++ nnn) = .instr (.jp nnn) ∧
    ∃ t, exec (.jp nnn) s = .next t ∧ t.pc.toNat = nnn.toNat ∧ t.fault = s.fault ∧ OnlyWrites (· = .pc) s t

/-- 41_flow R128: JP V0, nnn, encoded 0xBnnn, sets pc to the natural sum nnn + V0, at most 0x10FE, always of V0, and writes nothing else, VF neither. -/
def Obligations.JumpWithOffsetAddsV0WithoutWrap : Prop :=
  ∀ (nnn : Addr12) (s : State), decodeWord (0xB#4 ++ nnn) = .instr (.jpV0 nnn) ∧
    ∃ t, exec (.jpV0 nnn) s = .next t ∧ t.pc.toNat = nnn.toNat + (getV s 0).toNat ∧ t.pc.toNat ≤ 0x10FE ∧
      t.fault = s.fault ∧ OnlyWrites (· = .pc) s t

/-- 41_flow R124 to R127: each skip leaves pc + 4 when its condition holds and pc + 2 when not, and changes nothing else; with any other
n than 0 a 5xyn or 9xyn word raises DecodeError. -/
def Obligations.SkipsAdvancePcByFourOrTwo : Prop :=
  (∀ (x : RegIdx) (kk : Byte) (s : State), decodeWord (0x3#4 ++ x ++ kk) = .instr (.seImm x kk) ∧
    ∃ t, exec (.seImm x kk) s = .next t ∧ t.pc = (if getV s x = kk then s.pc + 4 else s.pc + 2) ∧ OnlyWrites (· = .pc) s t) ∧
  (∀ (x : RegIdx) (kk : Byte) (s : State), decodeWord (0x4#4 ++ x ++ kk) = .instr (.sneImm x kk) ∧
    ∃ t, exec (.sneImm x kk) s = .next t ∧ t.pc = (if getV s x = kk then s.pc + 2 else s.pc + 4) ∧ OnlyWrites (· = .pc) s t) ∧
  (∀ (x y : RegIdx) (s : State), decodeWord (0x5#4 ++ x ++ y ++ 0x0#4) = .instr (.seReg x y) ∧
    ∃ t, exec (.seReg x y) s = .next t ∧ t.pc = (if getV s x = getV s y then s.pc + 4 else s.pc + 2) ∧
      OnlyWrites (· = .pc) s t) ∧
  (∀ (x y : RegIdx) (s : State), decodeWord (0x9#4 ++ x ++ y ++ 0x0#4) = .instr (.sneReg x y) ∧
    ∃ t, exec (.sneReg x y) s = .next t ∧ t.pc = (if getV s x = getV s y then s.pc + 2 else s.pc + 4) ∧
      OnlyWrites (· = .pc) s t) ∧
  (∀ (x y : RegIdx) (n : Nibble) (s : State), n ≠ 0 → Fetches s →
    (fetchWord s = 0x5#4 ++ x ++ y ++ n ∨ fetchWord s = 0x9#4 ++ x ++ y ++ n) →
    ∃ t, step s = .next t ∧ t.fault = some ⟨.decodeError, s.pc, some (fetchWord s), none⟩)

/-- 41_flow, CALL (R123, decision D5): below depth 16 it pushes pc + 2 and jumps; at depth 16 it raises StackOverflow and writes only the record. -/
def Obligations.CallPushesTheReturnAddress : Prop :=
  ∀ (nnn : Addr12) (s : State),
    (∀ h : s.sp.val < 16, ∃ t, exec (.call nnn) s = .next t ∧ t.pc.toNat = nnn.toNat ∧ t.sp.val = s.sp.val + 1 ∧
      t.stack[s.sp.val] = s.pc + 2 ∧
      OnlyWrites (fun p => p = .pc ∨ p = .sp ∨ p = .stack ⟨s.sp.val, h⟩) s t) ∧
    (s.sp.val = 16 → ∃ t, exec (.call nnn) s = .next t ∧
      t.fault = some ⟨.stackOverflow, s.pc, some (0x2#4 ++ nnn), none⟩ ∧ OnlyWrites (· = .fault) s t)

/-- 41_flow, RET (R121, decision D5): above depth 0 it pops into pc, leaving the entry; at depth 0 it raises StackUnderflow and writes only the record. -/
def Obligations.ReturnPopsTheReturnAddress : Prop :=
  ∀ s : State,
    (∀ h : s.sp.val ≠ 0, ∃ t, exec .ret s = .next t ∧ t.pc = s.stack[s.sp.val - 1]'(by omega) ∧
      t.sp.val = s.sp.val - 1 ∧ OnlyWrites (fun p => p = .pc ∨ p = .sp) s t) ∧
    (s.sp.val = 0 → ∃ t, exec .ret s = .next t ∧
      t.fault = some ⟨.stackUnderflow, s.pc, some 0x00EE, none⟩ ∧ OnlyWrites (· = .fault) s t)

/-- 41_flow sections RET and CALL: a call then a return resumes at the instruction after the call at the same depth, and the two together change pc and
the one stack entry only. -/
def Obligations.CallThenReturnResumesAfterTheCall : Prop :=
  ∀ (nnn : Addr12) (s : State) (h : s.sp.val < 16), ∃ t u, exec (.call nnn) s = .next t ∧ exec .ret t = .next u ∧
    u.pc = s.pc + 2 ∧ u.sp = s.sp ∧ OnlyWrites (fun p => p = .pc ∨ p = .stack ⟨s.sp.val, h⟩) s u

/-! ### Display -/

/-- 42_display R150: CLS, encoded 0x00E0 exactly, clears every pixel and sets dirty; VF is not written; consume_dirty then returns true once and false
after. -/
def Obligations.ClsClearsEveryPixelAndMarksDirty : Prop :=
  (∀ w : Word, decodeWord w = .instr .cls ↔ w = 0x00E0) ∧
  ∀ s : State, ∃ t, exec .cls s = .next t ∧ (∀ x y, fbGet t x y = false) ∧ t.dirty = true ∧ t.pc = s.pc + 2 ∧
    OnlyWrites (fun p => (∃ x y, p = .pixel x y) ∨ p = .dirty ∨ p = .pc) s t ∧
    (consumeDirty t).1 = true ∧ (consumeDirty (consumeDirty t).2).1 = false

/-- 42_display, DRW (R151; the read order is decision D31, dirty is D21): when the n sprite bytes are in memory, each pixel is XORed with the sprite bit that
falls on it modulo the grid, VF is 1 exactly when a set pixel was turned off, dirty is set exactly when a sprite bit is set, and nothing else changes. -/
def Obligations.DrawTogglesExactlyTheSpritePixels : Prop :=
  ∀ (x y : RegIdx) (n : Nibble) (s : State), (∀ row, row < n.toNat → effAddr s row < 4096) →
    ∃ t, exec (.drw x y n) s = .next t ∧
      (∀ (px : Fin 64) (py : Fin 32), fbGet t px.val py.val =
        (fbGet s px.val py.val ^^ spriteAt s (getV s x).toNat (getV s y).toNat n.toNat px py)) ∧
      ((getV t regF).toNat = 1 ∧
          (∃ (px : Fin 64) (py : Fin 32), spriteAt s (getV s x).toNat (getV s y).toNat n.toNat px py = true ∧
            fbGet s px.val py.val = true) ∨
        (getV t regF).toNat = 0 ∧
          ∀ (px : Fin 64) (py : Fin 32), spriteAt s (getV s x).toNat (getV s y).toNat n.toNat px py = true →
            fbGet s px.val py.val = false) ∧
      (t.dirty = true ↔ s.dirty = true ∨
        ∃ (px : Fin 64) (py : Fin 32), spriteAt s (getV s x).toNat (getV s y).toNat n.toNat px py = true) ∧
      t.pc = s.pc + 2 ∧
      OnlyWrites (fun p => p = .v regF ∨ (∃ px py, p = .pixel px py) ∨ p = .dirty ∨ p = .pc) s t

/-- 42_display, DRW corner cases (R151): drawing the same sprite twice at the same place restores every pixel, and the second draw reports a collision exactly when a sprite
pixel was clear before the first draw, which then set it (by R151's pseudocode; its remark on the second draw leaves out a grid already set there, log entry 12). -/
def Obligations.DrawingTwiceRestoresTheGrid : Prop :=
  ∀ (x y : RegIdx) (n : Nibble) (s : State), x ≠ regF → y ≠ regF → (∀ row, row < n.toNat → effAddr s row < 4096) →
    ∃ t u, exec (.drw x y n) s = .next t ∧ exec (.drw x y n) t = .next u ∧
      (∀ (px : Fin 64) (py : Fin 32), fbGet u px.val py.val = fbGet s px.val py.val) ∧
      ((getV u regF).toNat = 1 ↔
        ∃ (px : Fin 64) (py : Fin 32), spriteAt s (getV s x).toNat (getV s y).toNat n.toNat px py = true ∧
          fbGet s px.val py.val = false)

/-! ### Arithmetic and logic -/

/-- 43_alu R160, R161: LD Vx, kk and ADD Vx, kk with their encodings; the sum is modulo 256 and no flag is written, so VF changes only as the destination. -/
def Obligations.ImmediateLoadAndAddWriteOnlyVx : Prop :=
  ∀ (x : RegIdx) (kk : Byte) (s : State),
    decodeWord (0x6#4 ++ x ++ kk) = .instr (.ldImm x kk) ∧
    (∃ t, exec (.ldImm x kk) s = .next t ∧ getV t x = kk ∧ t.pc = s.pc + 2 ∧
      OnlyWrites (fun p => p = .v x ∨ p = .pc) s t) ∧
    decodeWord (0x7#4 ++ x ++ kk) = .instr (.addImm x kk) ∧
    ∃ t, exec (.addImm x kk) s = .next t ∧ (getV t x).toNat = ((getV s x).toNat + kk.toNat) % 256 ∧ t.pc = s.pc + 2 ∧
      OnlyWrites (fun p => p = .v x ∨ p = .pc) s t

/-- 43_alu section 2 (R162 to R165; the meaning of 8xy0 and the sub-opcodes are the spec's general knowledge, log entry 9): copy, OR, AND and XOR bit by bit;
VF changes only as the destination. -/
def Obligations.CopyAndLogicWriteOnlyVx : Prop :=
  ∀ (x y : RegIdx) (s : State),
    (∃ t, exec (.ldReg x y) s = .next t ∧ getV t x = getV s y ∧ t.pc = s.pc + 2 ∧
      OnlyWrites (fun p => p = .v x ∨ p = .pc) s t) ∧
    (∃ t, exec (.orReg x y) s = .next t ∧
      (∀ b, b < 8 → (getV t x).getLsbD b = ((getV s x).getLsbD b || (getV s y).getLsbD b)) ∧ t.pc = s.pc + 2 ∧
      OnlyWrites (fun p => p = .v x ∨ p = .pc) s t) ∧
    (∃ t, exec (.andReg x y) s = .next t ∧
      (∀ b, b < 8 → (getV t x).getLsbD b = ((getV s x).getLsbD b && (getV s y).getLsbD b)) ∧ t.pc = s.pc + 2 ∧
      OnlyWrites (fun p => p = .v x ∨ p = .pc) s t) ∧
    (∃ t, exec (.xorReg x y) s = .next t ∧
      (∀ b, b < 8 → (getV t x).getLsbD b = ((getV s x).getLsbD b ^^ (getV s y).getLsbD b)) ∧ t.pc = s.pc + 2 ∧
      OnlyWrites (fun p => p = .v x ∨ p = .pc) s t)

/-- 43_alu sections 2 and 4, ADD (R166, R173): the sum modulo 256 and the carry, for every x and y; with x = F the flag stays (decision D7, log entry 10). -/
def Obligations.AddSetsTheCarryFlagLast : Prop :=
  ∀ (x y : RegIdx) (s : State), ∃ t, exec (.addReg x y) s = .next t ∧
    (x ≠ regF → (getV t x).toNat = ((getV s x).toNat + (getV s y).toNat) % 256) ∧
    (getV t regF).toNat = (if (getV s x).toNat + (getV s y).toNat > 255 then 1 else 0) ∧ t.pc = s.pc + 2 ∧
    OnlyWrites (fun p => p = .v x ∨ p = .v regF ∨ p = .pc) s t

/-- 43_alu sections 2 and 4, SUB and SUBN (R167, R169, R173): the difference modulo 256 and the strict comparison of the old operands; with x = F the flag stays
(decision D7, log entry 10). -/
def Obligations.SubtractionsSetTheStrictComparisonFlagLast : Prop :=
  ∀ (x y : RegIdx) (s : State),
    (∃ t, exec (.subReg x y) s = .next t ∧
      (x ≠ regF → (getV t x).toNat = ((getV s x).toNat + 256 - (getV s y).toNat) % 256) ∧
      (getV t regF).toNat = (if (getV s x).toNat > (getV s y).toNat then 1 else 0) ∧ t.pc = s.pc + 2 ∧
      OnlyWrites (fun p => p = .v x ∨ p = .v regF ∨ p = .pc) s t) ∧
    (∃ t, exec (.subnReg x y) s = .next t ∧
      (x ≠ regF → (getV t x).toNat = ((getV s y).toNat + 256 - (getV s x).toNat) % 256) ∧
      (getV t regF).toNat = (if (getV s y).toNat > (getV s x).toNat then 1 else 0) ∧ t.pc = s.pc + 2 ∧
      OnlyWrites (fun p => p = .v x ∨ p = .v regF ∨ p = .pc) s t)

/-- 43_alu sections 2 and 4, SHR and SHL (R168, R170, R173; 30_encoding R82): Vx is shifted by one, VF gets the bit shifted out, y is ignored; with x = F the flag stays
(decision D7, log entry 10). -/
def Obligations.ShiftsMoveTheBitOutIntoVf : Prop :=
  ∀ (x y : RegIdx) (s : State),
    (∃ t, exec (.shr x y) s = .next t ∧ (x ≠ regF → (getV t x).toNat = (getV s x).toNat / 2) ∧
      (getV t regF).toNat = (getV s x).toNat % 2 ∧ t.pc = s.pc + 2 ∧
      OnlyWrites (fun p => p = .v x ∨ p = .v regF ∨ p = .pc) s t) ∧
    (∃ t, exec (.shl x y) s = .next t ∧ (x ≠ regF → (getV t x).toNat = (getV s x).toNat * 2 % 256) ∧
      (getV t regF).toNat = (getV s x).toNat / 128 ∧ t.pc = s.pc + 2 ∧
      OnlyWrites (fun p => p = .v x ∨ p = .v regF ∨ p = .pc) s t)

/-- 43_alu section 3, RND (R171, 60_exceptions section 6, decision D13): Vx is the drawn byte, a free value (log entry 2), masked by kk: no bit outside kk is set, kk = 0 gives
0, and each execution draws once. -/
def Obligations.RandomByteIsMaskedAndFreshlyDrawn : Prop :=
  ∀ (x : RegIdx) (kk : Byte) (s : State), ∃ t, exec (.rnd x kk) s = .next t ∧
    (∀ b, b < 8 → (getV t x).getLsbD b = ((Config.rng s.rngCount).getLsbD b && kk.getLsbD b)) ∧
    (kk = 0 → getV t x = 0) ∧ t.rngCount = s.rngCount + 1 ∧ t.pc = s.pc + 2 ∧
    OnlyWrites (fun p => p = .v x ∨ p = .pc ∨ p = .rngCount) s t

/-! ### Index register and memory -/

/-- 44_index_memory R190, R192: LD I, nnn and LD F, Vx with their encodings: I = nnn, and I = Vx × 5 with no mask. -/
def Obligations.IndexIsSetToAddressOrGlyph : Prop :=
  (∀ (nnn : Addr12) (s : State), decodeWord (0xA#4 ++ nnn) = .instr (.ldI nnn) ∧
    ∃ t, exec (.ldI nnn) s = .next t ∧ t.i.toNat = nnn.toNat ∧ t.pc = s.pc + 2 ∧
      OnlyWrites (fun p => p = .i ∨ p = .pc) s t) ∧
  (∀ (x : RegIdx) (s : State), decodeWord (0xF#4 ++ x ++ 0x29#8) = .instr (.ldF x) ∧
    ∃ t, exec (.ldF x) s = .next t ∧ t.i.toNat = (getV s x).toNat * 5 ∧ t.pc = s.pc + 2 ∧
      OnlyWrites (fun p => p = .i ∨ p = .pc) s t)

/-- 44_index_memory, ADD I, Vx (R191, decision D8): a 16-bit sum that wraps, no flag. -/
def Obligations.IndexAddWrapsWithoutFlag : Prop :=
  ∀ (x : RegIdx) (s : State), ∃ t, exec (.addI x) s = .next t ∧
    t.i.toNat = (s.i.toNat + (getV s x).toNat) % 65536 ∧ t.pc = s.pc + 2 ∧
    OnlyWrites (fun p => p = .i ∨ p = .pc) s t

/-- 44_index_memory, LD B, Vx (R193, decision D4): when I + 2 is an address, the hundreds, tens and ones digits are at I, I + 1, I + 2, and no other byte changes. -/
def Obligations.BcdDigitsAreStoredAtIndex : Prop :=
  ∀ (x : RegIdx) (s : State), effAddr s 2 < 4096 →
    ∃ t, exec (.ldB x) s = .next t ∧
      (readByte t (effAddr s 0)).toNat = (getV s x).toNat / 100 ∧
      (readByte t (effAddr s 1)).toNat = (getV s x).toNat / 10 % 10 ∧
      (readByte t (effAddr s 2)).toNat = (getV s x).toNat % 10 ∧ t.pc = s.pc + 2 ∧
      OnlyWrites (fun p => AtIndex s 3 p ∨ p = .pc) s t

/-- 44_index_memory, LD [I], Vx (R194, decisions D4, D9): when I + x is an address, V0 to Vx are at I to I + x, I is unchanged, and no other byte changes. -/
def Obligations.RegistersAreStoredAtIndex : Prop :=
  ∀ (x : RegIdx) (s : State), effAddr s x.toNat < 4096 →
    ∃ t, exec (.storeRegs x) s = .next t ∧ (∀ r : RegIdx, r ≤ x → readByte t (effAddr s r.toNat) = getV s r) ∧
      t.pc = s.pc + 2 ∧ OnlyWrites (fun p => AtIndex s (x.toNat + 1) p ∨ p = .pc) s t

/-- 44_index_memory, LD Vx, [I] (R195, decisions D4, D9): when I + x is an address, V0 to Vx are the bytes at I to I + x, and no other register, no byte and not I
change. -/
def Obligations.RegistersAreLoadedFromIndex : Prop :=
  ∀ (x : RegIdx) (s : State), effAddr s x.toNat < 4096 →
    ∃ t, exec (.loadRegs x) s = .next t ∧ (∀ r : RegIdx, r ≤ x → getV t r = readByte s (effAddr s r.toNat)) ∧
      t.pc = s.pc + 2 ∧ OnlyWrites (fun p => (∃ r : RegIdx, r ≤ x ∧ p = .v r) ∨ p = .pc) s t

/-- 44_index_memory sections LD [I], Vx and LD Vx, [I]: registers stored and loaded back through the same I come back, whatever the registers held in between. -/
def Obligations.StoreThenLoadRestoresTheRegisters : Prop :=
  ∀ (x : RegIdx) (s : State), effAddr s x.toNat < 4096 →
    ∃ t, exec (.storeRegs x) s = .next t ∧ ∀ u : State, u.mem = t.mem → u.i = t.i →
      ∃ w, exec (.loadRegs x) u = .next w ∧ ∀ r : RegIdx, r ≤ x → getV w r = getV s r

/-- 20_memory section 3, 60_exceptions section 1 (R54 to R56, R235, decision D4): each of the four instructions that reach memory raises MemoryOutOfBounds when one of its
addresses is 4096 or more, with addr = max(I, 4096), and writes only the record. -/
def Obligations.OutOfRangeDataAddressFaultsPrecisely : Prop :=
  ∀ s : State,
    (∀ (x y : RegIdx) (n : Nibble), (∃ row, row < n.toNat ∧ 4096 ≤ effAddr s row) → ∃ t, exec (.drw x y n) s = .next t ∧
      t.fault = some ⟨.memoryOutOfBounds, s.pc, some (encode (.drw x y n)), some (max s.i.toNat 4096)⟩ ∧
      OnlyWrites (· = .fault) s t) ∧
    (∀ x : RegIdx, 4096 ≤ effAddr s 2 → ∃ t, exec (.ldB x) s = .next t ∧
      t.fault = some ⟨.memoryOutOfBounds, s.pc, some (encode (.ldB x)), some (max s.i.toNat 4096)⟩ ∧
      OnlyWrites (· = .fault) s t) ∧
    (∀ x : RegIdx, 4096 ≤ effAddr s x.toNat → ∃ t, exec (.storeRegs x) s = .next t ∧
      t.fault = some ⟨.memoryOutOfBounds, s.pc, some (encode (.storeRegs x)), some (max s.i.toNat 4096)⟩ ∧
      OnlyWrites (· = .fault) s t) ∧
    (∀ x : RegIdx, 4096 ≤ effAddr s x.toNat → ∃ t, exec (.loadRegs x) s = .next t ∧
      t.fault = some ⟨.memoryOutOfBounds, s.pc, some (encode (.loadRegs x)), some (max s.i.toNat 4096)⟩ ∧
      OnlyWrites (· = .fault) s t)

/-- 20_memory sections 1 and 4 and the model's canonical form: two canonical memories that read alike at every address are equal, so a comparison of states compares memory contents. -/
def Obligations.CanonicalMemoriesThatReadAlikeAreEqual : Prop :=
  ∀ m m' : Memory, Memory.wf m → Memory.wf m' → (∀ a, a < 4096 → memRead m a = memRead m' a) → m = m'

/-! ### Keypad and timers -/

/-- 45_keys_timers, SKP and SKNP (R210, R211, decision D10): for a key index below 16 pc + 4 or pc + 2 by the press flag; for 16 or more KeyIndexOutOfRange, only the record
written. -/
def Obligations.KeySkipsTestThePressFlag : Prop :=
  ∀ (x : RegIdx) (s : State),
    (∀ k : KeyIdx, (getV s x).toNat = k.toNat →
      (∃ t, exec (.skp x) s = .next t ∧ t.pc = (if keyPressed s k = true then s.pc + 4 else s.pc + 2) ∧
        OnlyWrites (· = .pc) s t) ∧
      (∃ t, exec (.sknp x) s = .next t ∧ t.pc = (if keyPressed s k = true then s.pc + 2 else s.pc + 4) ∧
        OnlyWrites (· = .pc) s t)) ∧
    (16 ≤ (getV s x).toNat →
      (∃ t, exec (.skp x) s = .next t ∧
        t.fault = some ⟨.keyIndexOutOfRange, s.pc, some (0xE#4 ++ x ++ 0x9E#8), none⟩ ∧ OnlyWrites (· = .fault) s t) ∧
      (∃ t, exec (.sknp x) s = .next t ∧
        t.fault = some ⟨.keyIndexOutOfRange, s.pc, some (0xE#4 ++ x ++ 0xA1#8), none⟩ ∧ OnlyWrites (· = .fault) s t))

/-- 45_keys_timers R212, R214, R215: the timer instructions with their encodings; the step's tick comes before its read or write, so LD Vx, DT reads the ticked DT
and a written timer holds V[x] when the step ends; the sound port reports the ST written. -/
def Obligations.TimerInstructionsMoveTheTimers : Prop :=
  ∀ (x : RegIdx) (s : State),
    decodeWord (0xF#4 ++ x ++ 0x07#8) = .instr (.ldVxDt x) ∧
    (∃ t, exec (.ldVxDt x) s = .next t ∧ getV t x = s.dt ∧ t.pc = s.pc + 2 ∧
      OnlyWrites (fun p => p = .v x ∨ p = .pc) s t) ∧
    (Fetches s → decodeWord (fetchWord s) = .instr (.ldVxDt x) →
      ∃ t, step s = .next t ∧ (getV t x).toNat = s.dt.toNat - 1) ∧
    decodeWord (0xF#4 ++ x ++ 0x15#8) = .instr (.ldDtVx x) ∧
    (∃ t, exec (.ldDtVx x) s = .next t ∧ t.dt = getV s x ∧ t.pc = s.pc + 2 ∧
      OnlyWrites (fun p => p = .dt ∨ p = .pc) s t) ∧
    (Fetches s → decodeWord (fetchWord s) = .instr (.ldDtVx x) → ∃ t, step s = .next t ∧ t.dt = getV s x) ∧
    decodeWord (0xF#4 ++ x ++ 0x18#8) = .instr (.ldStVx x) ∧
    (∃ t, exec (.ldStVx x) s = .next t ∧ t.st = getV s x ∧ soundValue t = getV s x ∧ t.pc = s.pc + 2 ∧
      OnlyWrites (fun p => p = .st ∨ p = .pc) s t) ∧
    (Fetches s → decodeWord (fetchWord s) = .instr (.ldStVx x) → ∃ t, step s = .next t ∧ t.st = getV s x)

/-- 45_keys_timers, LD Vx, K (R213, decision D37): key_wait becomes x and pc advances by 2; no register and not the latch change yet. -/
def Obligations.KeyReadEntersTheKeyWait : Prop :=
  ∀ (x : RegIdx) (s : State), ∃ t, exec (.ldVxK x) s = .next t ∧ t.keyWait = some x ∧ t.pc = s.pc + 2 ∧
    OnlyWrites (fun p => p = .keyWait ∨ p = .pc) s t

/-- 70_reset section 3 (R287, R288, decision D37): a key latched before LD Vx, K is stored at the very next step, which executes nothing and does not tick; with no latched key the next
step changes nothing. -/
def Obligations.LatchedKeyAnswersTheKeyReadOneStepLater : Prop :=
  ∀ (x : RegIdx) (s : State), Fetches s → decodeWord (fetchWord s) = .instr (.ldVxK x) →
    ∃ t, step s = .next t ∧
      (∀ k, s.latch = some k → ∃ u, step t = .next u ∧ (getV u x).toNat = k.toNat ∧ u.keyWait = none ∧ u.latch = none ∧
        u.pc = s.pc + 2 ∧ u.dt.toNat = s.dt.toNat - 1) ∧
      (s.latch = none → step t = .next t)

/-- 70_reset section 3 (R286): LD DT, Vx with Vx = d, followed at once by LD Vy, DT, gives Vy = d - 1 (0 for d = 0), with no host tick between. -/
def Obligations.DelayTimerReadsOneLessAtTheNextInstruction : Prop :=
  ∀ (x y : RegIdx) (s t : State), Fetches s → decodeWord (fetchWord s) = .instr (.ldDtVx x) → step s = .next t →
    t.pc.toNat ≤ 0xFFE → decodeWord (fetchWord t) = .instr (.ldVxDt y) →
    ∃ u, step t = .next u ∧ (getV u y).toNat = (getV s x).toNat - 1

/-- 20_memory section 5, 70_reset section 3 (R65, R289): an LD [I], Vx that overwrites the instruction at pc + 2 changes the word the very next step fetches. -/
def Obligations.StoredInstructionIsFetchedByTheNextStep : Prop :=
  ∀ (x : RegIdx) (s : State), Fetches s → decodeWord (fetchWord s) = .instr (.storeRegs x) → s.i = s.pc + 2 → 1 ≤ x →
    effAddr s x.toNat < 4096 →
    ∃ t, step s = .next t ∧ fetchWord t = wordOfBytes (getV s 0) (getV s 1)

/-! ### The host interface -/

/-- 60_exceptions section 5 (R252, R260; decisions D16, D17): a key event sets the flag; a release transition, and nothing else, writes the latch; an index above 15 is refused. -/
def Obligations.KeyEventSetsTheFlagAndLatchesReleases : Prop :=
  (∀ (k : KeyIdx) (p : Bool) (s : State), ∃ t, keyEvent k.toNat p s = .next t ∧ keyPressed t k = p ∧
    t.latch = (if p = false ∧ keyPressed s k = true then some k else s.latch) ∧
    OnlyWrites (fun q => q = .pressed k ∨ q = .latch) s t) ∧
  (∀ (k : Nat) (p : Bool) (s : State), 16 ≤ k → keyEvent k p s = .refused (.keyEventIndex k))

/-- 60_exceptions section 7 (R242, R247, R250, R251, R258; decisions D16, D17): each host operation's own frame and reply. A key event reaches its own press flag and the
latch, a host tick the two timers, consume_dirty the dirty flag, a pixel read and a sound read nothing; so apart from reset and step the host reaches no memory, V, I, pc,
sp, stack entry, key_wait, fault record or pixel. fb_read replies its pixel, sound_value ST, consume_dirty the old dirty flag, step what stepReturn reads (log entry 3). -/
def Obligations.EveryHostOperationHasItsOwnFrameAndReply : Prop :=
  (∀ (image : List Byte) (s : State), ∃ t, hostOp (.reset image) s = .next t ∧ { t with rngCount := 0 } = resetImage image ∧
    hostReply (.reset image) s t = .nothing) ∧
  (∀ s : State, ∃ t, hostOp .step s = .next t ∧ step s = .next t ∧ hostReply .step s t = .stepped t.fault) ∧
  (∀ (k : Nat) (p : Bool) (s : State), k < 16 → ∃ t, hostOp (.keyEvent k p) s = .next t ∧
    OnlyWrites (fun q => (∃ j : KeyIdx, j.toNat = k ∧ q = .pressed j) ∨ q = .latch) s t ∧
    hostReply (.keyEvent k p) s t = .nothing) ∧
  (∀ (k : Nat) (p : Bool) (s : State), 16 ≤ k → hostOp (.keyEvent k p) s = .refused (.keyEventIndex k)) ∧
  (∀ s : State, ∃ t, hostOp .timerTick s = .next t ∧ OnlyWrites (fun p => p = .dt ∨ p = .st) s t ∧
    hostReply .timerTick s t = .nothing) ∧
  (∀ s : State, ∃ t, hostOp .consumeDirty s = .next t ∧ OnlyWrites (· = .dirty) s t ∧
    hostReply .consumeDirty s t = .dirtyWas s.dirty) ∧
  (∀ (x : Fin 64) (y : Fin 32) (s : State), hostOp (.fbRead x y) s = .next s ∧ fbRead x y s = s.fb[x.val][y.val] ∧
    hostReply (.fbRead x y) s s = .pixel s.fb[x.val][y.val]) ∧
  (∀ s : State, hostOp .soundValue s = .next s ∧ soundValue s = s.st ∧ hostReply .soundValue s s = .sound s.st) ∧
  (∀ (op : HostOp) (s t : State), (∀ image, op ≠ .reset image) → op ≠ .step → hostOp op s = .next t →
    OnlyWrites (fun p => p = .dt ∨ p = .st ∨ (∃ k, p = .pressed k) ∨ p = .latch ∨ p = .dirty) s t)
end

