-- ==== Sys2Proof/Laws/State.lean ====
section
/-! SUPPORT. One lemma per field per state update, so that no proof unfolds a record update. -/

namespace Sys2Proof.Machine

variable (s : State)

/-! ### setV -/

@[simp] theorem setV_i (x : RegIdx) (b : Byte) : (setV x b s).i = s.i := (rfl)
@[simp] theorem setV_pc (x : RegIdx) (b : Byte) : (setV x b s).pc = s.pc := (rfl)
@[simp] theorem setV_sp (x : RegIdx) (b : Byte) : (setV x b s).sp = s.sp := (rfl)
@[simp] theorem setV_stack (x : RegIdx) (b : Byte) : (setV x b s).stack = s.stack := (rfl)
@[simp] theorem setV_dt (x : RegIdx) (b : Byte) : (setV x b s).dt = s.dt := (rfl)
@[simp] theorem setV_st (x : RegIdx) (b : Byte) : (setV x b s).st = s.st := (rfl)
@[simp] theorem setV_pressed (x : RegIdx) (b : Byte) : (setV x b s).pressed = s.pressed := (rfl)
@[simp] theorem setV_latch (x : RegIdx) (b : Byte) : (setV x b s).latch = s.latch := (rfl)
@[simp] theorem setV_keyWait (x : RegIdx) (b : Byte) : (setV x b s).keyWait = s.keyWait := (rfl)
@[simp] theorem setV_fb (x : RegIdx) (b : Byte) : (setV x b s).fb = s.fb := (rfl)
@[simp] theorem setV_dirty (x : RegIdx) (b : Byte) : (setV x b s).dirty = s.dirty := (rfl)
@[simp] theorem setV_mem (x : RegIdx) (b : Byte) : (setV x b s).mem = s.mem := (rfl)
@[simp] theorem setV_fault (x : RegIdx) (b : Byte) : (setV x b s).fault = s.fault := (rfl)
@[simp] theorem setV_rngCount (x : RegIdx) (b : Byte) : (setV x b s).rngCount = s.rngCount := (rfl)
@[simp] theorem keyPressed_setV (x : RegIdx) (b : Byte) (k : KeyIdx) : keyPressed (setV x b s) k = keyPressed s k := (rfl)
@[simp] theorem fbGet_setV (x : RegIdx) (b : Byte) (p q : Nat) : fbGet (setV x b s) p q = fbGet s p q := (rfl)
@[simp] theorem readByte_setV (x : RegIdx) (b : Byte) (d : Nat) : readByte (setV x b s) d = readByte s d := (rfl)

/-! ### setResultAndFlag -/

@[simp] theorem setResultAndFlag_i (x : RegIdx) (a b : Byte) : (setResultAndFlag x a b s).i = s.i := (rfl)
@[simp] theorem setResultAndFlag_pc (x : RegIdx) (a b : Byte) : (setResultAndFlag x a b s).pc = s.pc := (rfl)
@[simp] theorem setResultAndFlag_sp (x : RegIdx) (a b : Byte) : (setResultAndFlag x a b s).sp = s.sp := (rfl)
@[simp] theorem setResultAndFlag_stack (x : RegIdx) (a b : Byte) : (setResultAndFlag x a b s).stack = s.stack := (rfl)
@[simp] theorem setResultAndFlag_dt (x : RegIdx) (a b : Byte) : (setResultAndFlag x a b s).dt = s.dt := (rfl)
@[simp] theorem setResultAndFlag_st (x : RegIdx) (a b : Byte) : (setResultAndFlag x a b s).st = s.st := (rfl)
@[simp] theorem setResultAndFlag_pressed (x : RegIdx) (a b : Byte) : (setResultAndFlag x a b s).pressed = s.pressed := (rfl)
@[simp] theorem setResultAndFlag_latch (x : RegIdx) (a b : Byte) : (setResultAndFlag x a b s).latch = s.latch := (rfl)
@[simp] theorem setResultAndFlag_keyWait (x : RegIdx) (a b : Byte) : (setResultAndFlag x a b s).keyWait = s.keyWait := (rfl)
@[simp] theorem setResultAndFlag_fb (x : RegIdx) (a b : Byte) : (setResultAndFlag x a b s).fb = s.fb := (rfl)
@[simp] theorem setResultAndFlag_dirty (x : RegIdx) (a b : Byte) : (setResultAndFlag x a b s).dirty = s.dirty := (rfl)
@[simp] theorem setResultAndFlag_mem (x : RegIdx) (a b : Byte) : (setResultAndFlag x a b s).mem = s.mem := (rfl)
@[simp] theorem setResultAndFlag_fault (x : RegIdx) (a b : Byte) : (setResultAndFlag x a b s).fault = s.fault := (rfl)
@[simp] theorem setResultAndFlag_rngCount (x : RegIdx) (a b : Byte) : (setResultAndFlag x a b s).rngCount = s.rngCount := (rfl)
@[simp] theorem keyPressed_setResultAndFlag (x : RegIdx) (a b : Byte) (k : KeyIdx) : keyPressed (setResultAndFlag x a b s) k = keyPressed s k := (rfl)
@[simp] theorem fbGet_setResultAndFlag (x : RegIdx) (a b : Byte) (p q : Nat) : fbGet (setResultAndFlag x a b s) p q = fbGet s p q := (rfl)
@[simp] theorem readByte_setResultAndFlag (x : RegIdx) (a b : Byte) (d : Nat) : readByte (setResultAndFlag x a b s) d = readByte s d := (rfl)

/-! ### loadUpTo -/

@[simp] theorem loadUpTo_i (x : RegIdx) : (loadUpTo x s).i = s.i := (rfl)
@[simp] theorem loadUpTo_pc (x : RegIdx) : (loadUpTo x s).pc = s.pc := (rfl)
@[simp] theorem loadUpTo_sp (x : RegIdx) : (loadUpTo x s).sp = s.sp := (rfl)
@[simp] theorem loadUpTo_stack (x : RegIdx) : (loadUpTo x s).stack = s.stack := (rfl)
@[simp] theorem loadUpTo_dt (x : RegIdx) : (loadUpTo x s).dt = s.dt := (rfl)
@[simp] theorem loadUpTo_st (x : RegIdx) : (loadUpTo x s).st = s.st := (rfl)
@[simp] theorem loadUpTo_pressed (x : RegIdx) : (loadUpTo x s).pressed = s.pressed := (rfl)
@[simp] theorem loadUpTo_latch (x : RegIdx) : (loadUpTo x s).latch = s.latch := (rfl)
@[simp] theorem loadUpTo_keyWait (x : RegIdx) : (loadUpTo x s).keyWait = s.keyWait := (rfl)
@[simp] theorem loadUpTo_fb (x : RegIdx) : (loadUpTo x s).fb = s.fb := (rfl)
@[simp] theorem loadUpTo_dirty (x : RegIdx) : (loadUpTo x s).dirty = s.dirty := (rfl)
@[simp] theorem loadUpTo_mem (x : RegIdx) : (loadUpTo x s).mem = s.mem := (rfl)
@[simp] theorem loadUpTo_fault (x : RegIdx) : (loadUpTo x s).fault = s.fault := (rfl)
@[simp] theorem loadUpTo_rngCount (x : RegIdx) : (loadUpTo x s).rngCount = s.rngCount := (rfl)
@[simp] theorem keyPressed_loadUpTo (x : RegIdx) (k : KeyIdx) : keyPressed (loadUpTo x s) k = keyPressed s k := (rfl)
@[simp] theorem fbGet_loadUpTo (x : RegIdx) (p q : Nat) : fbGet (loadUpTo x s) p q = fbGet s p q := (rfl)
@[simp] theorem readByte_loadUpTo (x : RegIdx) (d : Nat) : readByte (loadUpTo x s) d = readByte s d := (rfl)

/-! ### setI -/

@[simp] theorem setI_v (a : Word) : (setI a s).v = s.v := (rfl)
@[simp] theorem setI_i (a : Word) : (setI a s).i = a := (rfl)
@[simp] theorem setI_pc (a : Word) : (setI a s).pc = s.pc := (rfl)
@[simp] theorem setI_sp (a : Word) : (setI a s).sp = s.sp := (rfl)
@[simp] theorem setI_stack (a : Word) : (setI a s).stack = s.stack := (rfl)
@[simp] theorem setI_dt (a : Word) : (setI a s).dt = s.dt := (rfl)
@[simp] theorem setI_st (a : Word) : (setI a s).st = s.st := (rfl)
@[simp] theorem setI_pressed (a : Word) : (setI a s).pressed = s.pressed := (rfl)
@[simp] theorem setI_latch (a : Word) : (setI a s).latch = s.latch := (rfl)
@[simp] theorem setI_keyWait (a : Word) : (setI a s).keyWait = s.keyWait := (rfl)
@[simp] theorem setI_fb (a : Word) : (setI a s).fb = s.fb := (rfl)
@[simp] theorem setI_dirty (a : Word) : (setI a s).dirty = s.dirty := (rfl)
@[simp] theorem setI_mem (a : Word) : (setI a s).mem = s.mem := (rfl)
@[simp] theorem setI_fault (a : Word) : (setI a s).fault = s.fault := (rfl)
@[simp] theorem setI_rngCount (a : Word) : (setI a s).rngCount = s.rngCount := (rfl)
@[simp] theorem getV_setI (a : Word) (r : RegIdx) : getV (setI a s) r = getV s r := (rfl)
@[simp] theorem keyPressed_setI (a : Word) (k : KeyIdx) : keyPressed (setI a s) k = keyPressed s k := (rfl)
@[simp] theorem fbGet_setI (a : Word) (p q : Nat) : fbGet (setI a s) p q = fbGet s p q := (rfl)
@[simp] theorem readByte_setI (a : Word) (d : Nat) : readByte (setI a s) d = readByte s d := (rfl)

/-! ### setPc -/

@[simp] theorem setPc_v (a : Word) : (setPc a s).v = s.v := (rfl)
@[simp] theorem setPc_i (a : Word) : (setPc a s).i = s.i := (rfl)
@[simp] theorem setPc_pc (a : Word) : (setPc a s).pc = a := (rfl)
@[simp] theorem setPc_sp (a : Word) : (setPc a s).sp = s.sp := (rfl)
@[simp] theorem setPc_stack (a : Word) : (setPc a s).stack = s.stack := (rfl)
@[simp] theorem setPc_dt (a : Word) : (setPc a s).dt = s.dt := (rfl)
@[simp] theorem setPc_st (a : Word) : (setPc a s).st = s.st := (rfl)
@[simp] theorem setPc_pressed (a : Word) : (setPc a s).pressed = s.pressed := (rfl)
@[simp] theorem setPc_latch (a : Word) : (setPc a s).latch = s.latch := (rfl)
@[simp] theorem setPc_keyWait (a : Word) : (setPc a s).keyWait = s.keyWait := (rfl)
@[simp] theorem setPc_fb (a : Word) : (setPc a s).fb = s.fb := (rfl)
@[simp] theorem setPc_dirty (a : Word) : (setPc a s).dirty = s.dirty := (rfl)
@[simp] theorem setPc_mem (a : Word) : (setPc a s).mem = s.mem := (rfl)
@[simp] theorem setPc_fault (a : Word) : (setPc a s).fault = s.fault := (rfl)
@[simp] theorem setPc_rngCount (a : Word) : (setPc a s).rngCount = s.rngCount := (rfl)
@[simp] theorem getV_setPc (a : Word) (r : RegIdx) : getV (setPc a s) r = getV s r := (rfl)
@[simp] theorem keyPressed_setPc (a : Word) (k : KeyIdx) : keyPressed (setPc a s) k = keyPressed s k := (rfl)
@[simp] theorem fbGet_setPc (a : Word) (p q : Nat) : fbGet (setPc a s) p q = fbGet s p q := (rfl)
@[simp] theorem readByte_setPc (a : Word) (d : Nat) : readByte (setPc a s) d = readByte s d := (rfl)

/-! ### next -/

@[simp] theorem next_v : (next s).v = s.v := (rfl)
@[simp] theorem next_i : (next s).i = s.i := (rfl)
@[simp] theorem next_pc : (next s).pc = s.pc + 2#16 := (rfl)
@[simp] theorem next_sp : (next s).sp = s.sp := (rfl)
@[simp] theorem next_stack : (next s).stack = s.stack := (rfl)
@[simp] theorem next_dt : (next s).dt = s.dt := (rfl)
@[simp] theorem next_st : (next s).st = s.st := (rfl)
@[simp] theorem next_pressed : (next s).pressed = s.pressed := (rfl)
@[simp] theorem next_latch : (next s).latch = s.latch := (rfl)
@[simp] theorem next_keyWait : (next s).keyWait = s.keyWait := (rfl)
@[simp] theorem next_fb : (next s).fb = s.fb := (rfl)
@[simp] theorem next_dirty : (next s).dirty = s.dirty := (rfl)
@[simp] theorem next_mem : (next s).mem = s.mem := (rfl)
@[simp] theorem next_fault : (next s).fault = s.fault := (rfl)
@[simp] theorem next_rngCount : (next s).rngCount = s.rngCount := (rfl)
@[simp] theorem getV_next (r : RegIdx) : getV (next s) r = getV s r := (rfl)
@[simp] theorem keyPressed_next (k : KeyIdx) : keyPressed (next s) k = keyPressed s k := (rfl)
@[simp] theorem fbGet_next (p q : Nat) : fbGet (next s) p q = fbGet s p q := (rfl)
@[simp] theorem readByte_next (d : Nat) : readByte (next s) d = readByte s d := (rfl)

/-! ### skip -/

@[simp] theorem skip_v : (skip s).v = s.v := (rfl)
@[simp] theorem skip_i : (skip s).i = s.i := (rfl)
@[simp] theorem skip_pc : (skip s).pc = s.pc + 4#16 := (rfl)
@[simp] theorem skip_sp : (skip s).sp = s.sp := (rfl)
@[simp] theorem skip_stack : (skip s).stack = s.stack := (rfl)
@[simp] theorem skip_dt : (skip s).dt = s.dt := (rfl)
@[simp] theorem skip_st : (skip s).st = s.st := (rfl)
@[simp] theorem skip_pressed : (skip s).pressed = s.pressed := (rfl)
@[simp] theorem skip_latch : (skip s).latch = s.latch := (rfl)
@[simp] theorem skip_keyWait : (skip s).keyWait = s.keyWait := (rfl)
@[simp] theorem skip_fb : (skip s).fb = s.fb := (rfl)
@[simp] theorem skip_dirty : (skip s).dirty = s.dirty := (rfl)
@[simp] theorem skip_mem : (skip s).mem = s.mem := (rfl)
@[simp] theorem skip_fault : (skip s).fault = s.fault := (rfl)
@[simp] theorem skip_rngCount : (skip s).rngCount = s.rngCount := (rfl)
@[simp] theorem getV_skip (r : RegIdx) : getV (skip s) r = getV s r := (rfl)
@[simp] theorem keyPressed_skip (k : KeyIdx) : keyPressed (skip s) k = keyPressed s k := (rfl)
@[simp] theorem fbGet_skip (p q : Nat) : fbGet (skip s) p q = fbGet s p q := (rfl)
@[simp] theorem readByte_skip (d : Nat) : readByte (skip s) d = readByte s d := (rfl)

/-! ### skipIf -/

@[simp] theorem skipIf_v (c : Bool) : (skipIf c s).v = s.v := by cases c <;> exact (rfl)
@[simp] theorem skipIf_i (c : Bool) : (skipIf c s).i = s.i := by cases c <;> exact (rfl)
@[simp] theorem skipIf_pc (c : Bool) : (skipIf c s).pc = if c then s.pc + 4#16 else s.pc + 2#16 := by cases c <;> exact (rfl)
@[simp] theorem skipIf_sp (c : Bool) : (skipIf c s).sp = s.sp := by cases c <;> exact (rfl)
@[simp] theorem skipIf_stack (c : Bool) : (skipIf c s).stack = s.stack := by cases c <;> exact (rfl)
@[simp] theorem skipIf_dt (c : Bool) : (skipIf c s).dt = s.dt := by cases c <;> exact (rfl)
@[simp] theorem skipIf_st (c : Bool) : (skipIf c s).st = s.st := by cases c <;> exact (rfl)
@[simp] theorem skipIf_pressed (c : Bool) : (skipIf c s).pressed = s.pressed := by cases c <;> exact (rfl)
@[simp] theorem skipIf_latch (c : Bool) : (skipIf c s).latch = s.latch := by cases c <;> exact (rfl)
@[simp] theorem skipIf_keyWait (c : Bool) : (skipIf c s).keyWait = s.keyWait := by cases c <;> exact (rfl)
@[simp] theorem skipIf_fb (c : Bool) : (skipIf c s).fb = s.fb := by cases c <;> exact (rfl)
@[simp] theorem skipIf_dirty (c : Bool) : (skipIf c s).dirty = s.dirty := by cases c <;> exact (rfl)
@[simp] theorem skipIf_mem (c : Bool) : (skipIf c s).mem = s.mem := by cases c <;> exact (rfl)
@[simp] theorem skipIf_fault (c : Bool) : (skipIf c s).fault = s.fault := by cases c <;> exact (rfl)
@[simp] theorem skipIf_rngCount (c : Bool) : (skipIf c s).rngCount = s.rngCount := by cases c <;> exact (rfl)
@[simp] theorem getV_skipIf (c : Bool) (r : RegIdx) : getV (skipIf c s) r = getV s r := by cases c <;> exact (rfl)
@[simp] theorem keyPressed_skipIf (c : Bool) (k : KeyIdx) : keyPressed (skipIf c s) k = keyPressed s k := by cases c <;> exact (rfl)
@[simp] theorem fbGet_skipIf (c : Bool) (p q : Nat) : fbGet (skipIf c s) p q = fbGet s p q := by cases c <;> exact (rfl)
@[simp] theorem readByte_skipIf (c : Bool) (d : Nat) : readByte (skipIf c s) d = readByte s d := by cases c <;> exact (rfl)

/-! ### storeBytes -/

@[simp] theorem storeBytes_v (a : Nat) (bs : List Byte) : (storeBytes a bs s).v = s.v := (rfl)
@[simp] theorem storeBytes_i (a : Nat) (bs : List Byte) : (storeBytes a bs s).i = s.i := (rfl)
@[simp] theorem storeBytes_pc (a : Nat) (bs : List Byte) : (storeBytes a bs s).pc = s.pc := (rfl)
@[simp] theorem storeBytes_sp (a : Nat) (bs : List Byte) : (storeBytes a bs s).sp = s.sp := (rfl)
@[simp] theorem storeBytes_stack (a : Nat) (bs : List Byte) : (storeBytes a bs s).stack = s.stack := (rfl)
@[simp] theorem storeBytes_dt (a : Nat) (bs : List Byte) : (storeBytes a bs s).dt = s.dt := (rfl)
@[simp] theorem storeBytes_st (a : Nat) (bs : List Byte) : (storeBytes a bs s).st = s.st := (rfl)
@[simp] theorem storeBytes_pressed (a : Nat) (bs : List Byte) : (storeBytes a bs s).pressed = s.pressed := (rfl)
@[simp] theorem storeBytes_latch (a : Nat) (bs : List Byte) : (storeBytes a bs s).latch = s.latch := (rfl)
@[simp] theorem storeBytes_keyWait (a : Nat) (bs : List Byte) : (storeBytes a bs s).keyWait = s.keyWait := (rfl)
@[simp] theorem storeBytes_fb (a : Nat) (bs : List Byte) : (storeBytes a bs s).fb = s.fb := (rfl)
@[simp] theorem storeBytes_dirty (a : Nat) (bs : List Byte) : (storeBytes a bs s).dirty = s.dirty := (rfl)
@[simp] theorem storeBytes_mem (a : Nat) (bs : List Byte) : (storeBytes a bs s).mem = memWriteBytes a bs s.mem := (rfl)
@[simp] theorem storeBytes_fault (a : Nat) (bs : List Byte) : (storeBytes a bs s).fault = s.fault := (rfl)
@[simp] theorem storeBytes_rngCount (a : Nat) (bs : List Byte) : (storeBytes a bs s).rngCount = s.rngCount := (rfl)
@[simp] theorem getV_storeBytes (a : Nat) (bs : List Byte) (r : RegIdx) : getV (storeBytes a bs s) r = getV s r := (rfl)
@[simp] theorem keyPressed_storeBytes (a : Nat) (bs : List Byte) (k : KeyIdx) : keyPressed (storeBytes a bs s) k = keyPressed s k := (rfl)
@[simp] theorem fbGet_storeBytes (a : Nat) (bs : List Byte) (p q : Nat) : fbGet (storeBytes a bs s) p q = fbGet s p q := (rfl)

/-! ### setDt -/

@[simp] theorem setDt_v (b : Byte) : (setDt b s).v = s.v := (rfl)
@[simp] theorem setDt_i (b : Byte) : (setDt b s).i = s.i := (rfl)
@[simp] theorem setDt_pc (b : Byte) : (setDt b s).pc = s.pc := (rfl)
@[simp] theorem setDt_sp (b : Byte) : (setDt b s).sp = s.sp := (rfl)
@[simp] theorem setDt_stack (b : Byte) : (setDt b s).stack = s.stack := (rfl)
@[simp] theorem setDt_dt (b : Byte) : (setDt b s).dt = b := (rfl)
@[simp] theorem setDt_st (b : Byte) : (setDt b s).st = s.st := (rfl)
@[simp] theorem setDt_pressed (b : Byte) : (setDt b s).pressed = s.pressed := (rfl)
@[simp] theorem setDt_latch (b : Byte) : (setDt b s).latch = s.latch := (rfl)
@[simp] theorem setDt_keyWait (b : Byte) : (setDt b s).keyWait = s.keyWait := (rfl)
@[simp] theorem setDt_fb (b : Byte) : (setDt b s).fb = s.fb := (rfl)
@[simp] theorem setDt_dirty (b : Byte) : (setDt b s).dirty = s.dirty := (rfl)
@[simp] theorem setDt_mem (b : Byte) : (setDt b s).mem = s.mem := (rfl)
@[simp] theorem setDt_fault (b : Byte) : (setDt b s).fault = s.fault := (rfl)
@[simp] theorem setDt_rngCount (b : Byte) : (setDt b s).rngCount = s.rngCount := (rfl)
@[simp] theorem getV_setDt (b : Byte) (r : RegIdx) : getV (setDt b s) r = getV s r := (rfl)
@[simp] theorem keyPressed_setDt (b : Byte) (k : KeyIdx) : keyPressed (setDt b s) k = keyPressed s k := (rfl)
@[simp] theorem fbGet_setDt (b : Byte) (p q : Nat) : fbGet (setDt b s) p q = fbGet s p q := (rfl)
@[simp] theorem readByte_setDt (b : Byte) (d : Nat) : readByte (setDt b s) d = readByte s d := (rfl)

/-! ### setSt -/

@[simp] theorem setSt_v (b : Byte) : (setSt b s).v = s.v := (rfl)
@[simp] theorem setSt_i (b : Byte) : (setSt b s).i = s.i := (rfl)
@[simp] theorem setSt_pc (b : Byte) : (setSt b s).pc = s.pc := (rfl)
@[simp] theorem setSt_sp (b : Byte) : (setSt b s).sp = s.sp := (rfl)
@[simp] theorem setSt_stack (b : Byte) : (setSt b s).stack = s.stack := (rfl)
@[simp] theorem setSt_dt (b : Byte) : (setSt b s).dt = s.dt := (rfl)
@[simp] theorem setSt_st (b : Byte) : (setSt b s).st = b := (rfl)
@[simp] theorem setSt_pressed (b : Byte) : (setSt b s).pressed = s.pressed := (rfl)
@[simp] theorem setSt_latch (b : Byte) : (setSt b s).latch = s.latch := (rfl)
@[simp] theorem setSt_keyWait (b : Byte) : (setSt b s).keyWait = s.keyWait := (rfl)
@[simp] theorem setSt_fb (b : Byte) : (setSt b s).fb = s.fb := (rfl)
@[simp] theorem setSt_dirty (b : Byte) : (setSt b s).dirty = s.dirty := (rfl)
@[simp] theorem setSt_mem (b : Byte) : (setSt b s).mem = s.mem := (rfl)
@[simp] theorem setSt_fault (b : Byte) : (setSt b s).fault = s.fault := (rfl)
@[simp] theorem setSt_rngCount (b : Byte) : (setSt b s).rngCount = s.rngCount := (rfl)
@[simp] theorem getV_setSt (b : Byte) (r : RegIdx) : getV (setSt b s) r = getV s r := (rfl)
@[simp] theorem keyPressed_setSt (b : Byte) (k : KeyIdx) : keyPressed (setSt b s) k = keyPressed s k := (rfl)
@[simp] theorem fbGet_setSt (b : Byte) (p q : Nat) : fbGet (setSt b s) p q = fbGet s p q := (rfl)
@[simp] theorem readByte_setSt (b : Byte) (d : Nat) : readByte (setSt b s) d = readByte s d := (rfl)

/-! ### timerTick -/

@[simp] theorem timerTick_v : (timerTick s).v = s.v := (rfl)
@[simp] theorem timerTick_i : (timerTick s).i = s.i := (rfl)
@[simp] theorem timerTick_pc : (timerTick s).pc = s.pc := (rfl)
@[simp] theorem timerTick_sp : (timerTick s).sp = s.sp := (rfl)
@[simp] theorem timerTick_stack : (timerTick s).stack = s.stack := (rfl)
@[simp] theorem timerTick_dt : (timerTick s).dt = countDown s.dt := (rfl)
@[simp] theorem timerTick_st : (timerTick s).st = countDown s.st := (rfl)
@[simp] theorem timerTick_pressed : (timerTick s).pressed = s.pressed := (rfl)
@[simp] theorem timerTick_latch : (timerTick s).latch = s.latch := (rfl)
@[simp] theorem timerTick_keyWait : (timerTick s).keyWait = s.keyWait := (rfl)
@[simp] theorem timerTick_fb : (timerTick s).fb = s.fb := (rfl)
@[simp] theorem timerTick_dirty : (timerTick s).dirty = s.dirty := (rfl)
@[simp] theorem timerTick_mem : (timerTick s).mem = s.mem := (rfl)
@[simp] theorem timerTick_fault : (timerTick s).fault = s.fault := (rfl)
@[simp] theorem timerTick_rngCount : (timerTick s).rngCount = s.rngCount := (rfl)
@[simp] theorem getV_timerTick (r : RegIdx) : getV (timerTick s) r = getV s r := (rfl)
@[simp] theorem keyPressed_timerTick (k : KeyIdx) : keyPressed (timerTick s) k = keyPressed s k := (rfl)
@[simp] theorem fbGet_timerTick (p q : Nat) : fbGet (timerTick s) p q = fbGet s p q := (rfl)
@[simp] theorem readByte_timerTick (d : Nat) : readByte (timerTick s) d = readByte s d := (rfl)

/-! ### fbPut -/

@[simp] theorem fbPut_v (x y : Nat) (on : Bool) : (fbPut x y on s).v = s.v := (rfl)
@[simp] theorem fbPut_i (x y : Nat) (on : Bool) : (fbPut x y on s).i = s.i := (rfl)
@[simp] theorem fbPut_pc (x y : Nat) (on : Bool) : (fbPut x y on s).pc = s.pc := (rfl)
@[simp] theorem fbPut_sp (x y : Nat) (on : Bool) : (fbPut x y on s).sp = s.sp := (rfl)
@[simp] theorem fbPut_stack (x y : Nat) (on : Bool) : (fbPut x y on s).stack = s.stack := (rfl)
@[simp] theorem fbPut_dt (x y : Nat) (on : Bool) : (fbPut x y on s).dt = s.dt := (rfl)
@[simp] theorem fbPut_st (x y : Nat) (on : Bool) : (fbPut x y on s).st = s.st := (rfl)
@[simp] theorem fbPut_pressed (x y : Nat) (on : Bool) : (fbPut x y on s).pressed = s.pressed := (rfl)
@[simp] theorem fbPut_latch (x y : Nat) (on : Bool) : (fbPut x y on s).latch = s.latch := (rfl)
@[simp] theorem fbPut_keyWait (x y : Nat) (on : Bool) : (fbPut x y on s).keyWait = s.keyWait := (rfl)
@[simp] theorem fbPut_dirty (x y : Nat) (on : Bool) : (fbPut x y on s).dirty = s.dirty := (rfl)
@[simp] theorem fbPut_mem (x y : Nat) (on : Bool) : (fbPut x y on s).mem = s.mem := (rfl)
@[simp] theorem fbPut_fault (x y : Nat) (on : Bool) : (fbPut x y on s).fault = s.fault := (rfl)
@[simp] theorem fbPut_rngCount (x y : Nat) (on : Bool) : (fbPut x y on s).rngCount = s.rngCount := (rfl)
@[simp] theorem getV_fbPut (x y : Nat) (on : Bool) (r : RegIdx) : getV (fbPut x y on s) r = getV s r := (rfl)
@[simp] theorem keyPressed_fbPut (x y : Nat) (on : Bool) (k : KeyIdx) : keyPressed (fbPut x y on s) k = keyPressed s k := (rfl)
@[simp] theorem readByte_fbPut (x y : Nat) (on : Bool) (d : Nat) : readByte (fbPut x y on s) d = readByte s d := (rfl)

/-! ### fbSet -/

@[simp] theorem fbSet_v (x y : Nat) (on : Bool) : (fbSet x y on s).1.v = s.v := (rfl)
@[simp] theorem fbSet_i (x y : Nat) (on : Bool) : (fbSet x y on s).1.i = s.i := (rfl)
@[simp] theorem fbSet_pc (x y : Nat) (on : Bool) : (fbSet x y on s).1.pc = s.pc := (rfl)
@[simp] theorem fbSet_sp (x y : Nat) (on : Bool) : (fbSet x y on s).1.sp = s.sp := (rfl)
@[simp] theorem fbSet_stack (x y : Nat) (on : Bool) : (fbSet x y on s).1.stack = s.stack := (rfl)
@[simp] theorem fbSet_dt (x y : Nat) (on : Bool) : (fbSet x y on s).1.dt = s.dt := (rfl)
@[simp] theorem fbSet_st (x y : Nat) (on : Bool) : (fbSet x y on s).1.st = s.st := (rfl)
@[simp] theorem fbSet_pressed (x y : Nat) (on : Bool) : (fbSet x y on s).1.pressed = s.pressed := (rfl)
@[simp] theorem fbSet_latch (x y : Nat) (on : Bool) : (fbSet x y on s).1.latch = s.latch := (rfl)
@[simp] theorem fbSet_keyWait (x y : Nat) (on : Bool) : (fbSet x y on s).1.keyWait = s.keyWait := (rfl)
@[simp] theorem fbSet_dirty (x y : Nat) (on : Bool) : (fbSet x y on s).1.dirty = true := (rfl)
@[simp] theorem fbSet_mem (x y : Nat) (on : Bool) : (fbSet x y on s).1.mem = s.mem := (rfl)
@[simp] theorem fbSet_fault (x y : Nat) (on : Bool) : (fbSet x y on s).1.fault = s.fault := (rfl)
@[simp] theorem fbSet_rngCount (x y : Nat) (on : Bool) : (fbSet x y on s).1.rngCount = s.rngCount := (rfl)
@[simp] theorem getV_fbSet (x y : Nat) (on : Bool) (r : RegIdx) : getV (fbSet x y on s).1 r = getV s r := (rfl)
@[simp] theorem keyPressed_fbSet (x y : Nat) (on : Bool) (k : KeyIdx) : keyPressed (fbSet x y on s).1 k = keyPressed s k := (rfl)
@[simp] theorem readByte_fbSet (x y : Nat) (on : Bool) (d : Nat) : readByte (fbSet x y on s).1 d = readByte s d := (rfl)

/-! ### fbClear -/

@[simp] theorem fbClear_v : (fbClear s).v = s.v := (rfl)
@[simp] theorem fbClear_i : (fbClear s).i = s.i := (rfl)
@[simp] theorem fbClear_pc : (fbClear s).pc = s.pc := (rfl)
@[simp] theorem fbClear_sp : (fbClear s).sp = s.sp := (rfl)
@[simp] theorem fbClear_stack : (fbClear s).stack = s.stack := (rfl)
@[simp] theorem fbClear_dt : (fbClear s).dt = s.dt := (rfl)
@[simp] theorem fbClear_st : (fbClear s).st = s.st := (rfl)
@[simp] theorem fbClear_pressed : (fbClear s).pressed = s.pressed := (rfl)
@[simp] theorem fbClear_latch : (fbClear s).latch = s.latch := (rfl)
@[simp] theorem fbClear_keyWait : (fbClear s).keyWait = s.keyWait := (rfl)
@[simp] theorem fbClear_dirty : (fbClear s).dirty = true := (rfl)
@[simp] theorem fbClear_mem : (fbClear s).mem = s.mem := (rfl)
@[simp] theorem fbClear_fault : (fbClear s).fault = s.fault := (rfl)
@[simp] theorem fbClear_rngCount : (fbClear s).rngCount = s.rngCount := (rfl)
@[simp] theorem getV_fbClear (r : RegIdx) : getV (fbClear s) r = getV s r := (rfl)
@[simp] theorem keyPressed_fbClear (k : KeyIdx) : keyPressed (fbClear s) k = keyPressed s k := (rfl)
@[simp] theorem readByte_fbClear (d : Nat) : readByte (fbClear s) d = readByte s d := (rfl)

/-! ### setKeyWait -/

@[simp] theorem setKeyWait_v (r : Option RegIdx) : (setKeyWait r s).v = s.v := (rfl)
@[simp] theorem setKeyWait_i (r : Option RegIdx) : (setKeyWait r s).i = s.i := (rfl)
@[simp] theorem setKeyWait_pc (r : Option RegIdx) : (setKeyWait r s).pc = s.pc := (rfl)
@[simp] theorem setKeyWait_sp (r : Option RegIdx) : (setKeyWait r s).sp = s.sp := (rfl)
@[simp] theorem setKeyWait_stack (r : Option RegIdx) : (setKeyWait r s).stack = s.stack := (rfl)
@[simp] theorem setKeyWait_dt (r : Option RegIdx) : (setKeyWait r s).dt = s.dt := (rfl)
@[simp] theorem setKeyWait_st (r : Option RegIdx) : (setKeyWait r s).st = s.st := (rfl)
@[simp] theorem setKeyWait_pressed (r : Option RegIdx) : (setKeyWait r s).pressed = s.pressed := (rfl)
@[simp] theorem setKeyWait_latch (r : Option RegIdx) : (setKeyWait r s).latch = s.latch := (rfl)
@[simp] theorem setKeyWait_keyWait (r : Option RegIdx) : (setKeyWait r s).keyWait = r := (rfl)
@[simp] theorem setKeyWait_fb (r : Option RegIdx) : (setKeyWait r s).fb = s.fb := (rfl)
@[simp] theorem setKeyWait_dirty (r : Option RegIdx) : (setKeyWait r s).dirty = s.dirty := (rfl)
@[simp] theorem setKeyWait_mem (r : Option RegIdx) : (setKeyWait r s).mem = s.mem := (rfl)
@[simp] theorem setKeyWait_fault (r : Option RegIdx) : (setKeyWait r s).fault = s.fault := (rfl)
@[simp] theorem setKeyWait_rngCount (r : Option RegIdx) : (setKeyWait r s).rngCount = s.rngCount := (rfl)
@[simp] theorem getV_setKeyWait (k : Option RegIdx) (r : RegIdx) : getV (setKeyWait k s) r = getV s r := (rfl)
@[simp] theorem keyPressed_setKeyWait (r : Option RegIdx) (k : KeyIdx) : keyPressed (setKeyWait r s) k = keyPressed s k := (rfl)
@[simp] theorem fbGet_setKeyWait (r : Option RegIdx) (p q : Nat) : fbGet (setKeyWait r s) p q = fbGet s p q := (rfl)
@[simp] theorem readByte_setKeyWait (r : Option RegIdx) (d : Nat) : readByte (setKeyWait r s) d = readByte s d := (rfl)

/-! ### raiseFault -/

@[simp] theorem raiseFault_v (k : Fault) (w : Option Word) (a : Option Nat) : (raiseFault k w a s).v = s.v := (rfl)
@[simp] theorem raiseFault_i (k : Fault) (w : Option Word) (a : Option Nat) : (raiseFault k w a s).i = s.i := (rfl)
@[simp] theorem raiseFault_pc (k : Fault) (w : Option Word) (a : Option Nat) : (raiseFault k w a s).pc = s.pc := (rfl)
@[simp] theorem raiseFault_sp (k : Fault) (w : Option Word) (a : Option Nat) : (raiseFault k w a s).sp = s.sp := (rfl)
@[simp] theorem raiseFault_stack (k : Fault) (w : Option Word) (a : Option Nat) : (raiseFault k w a s).stack = s.stack := (rfl)
@[simp] theorem raiseFault_dt (k : Fault) (w : Option Word) (a : Option Nat) : (raiseFault k w a s).dt = s.dt := (rfl)
@[simp] theorem raiseFault_st (k : Fault) (w : Option Word) (a : Option Nat) : (raiseFault k w a s).st = s.st := (rfl)
@[simp] theorem raiseFault_pressed (k : Fault) (w : Option Word) (a : Option Nat) : (raiseFault k w a s).pressed = s.pressed := (rfl)
@[simp] theorem raiseFault_latch (k : Fault) (w : Option Word) (a : Option Nat) : (raiseFault k w a s).latch = s.latch := (rfl)
@[simp] theorem raiseFault_keyWait (k : Fault) (w : Option Word) (a : Option Nat) : (raiseFault k w a s).keyWait = s.keyWait := (rfl)
@[simp] theorem raiseFault_fb (k : Fault) (w : Option Word) (a : Option Nat) : (raiseFault k w a s).fb = s.fb := (rfl)
@[simp] theorem raiseFault_dirty (k : Fault) (w : Option Word) (a : Option Nat) : (raiseFault k w a s).dirty = s.dirty := (rfl)
@[simp] theorem raiseFault_mem (k : Fault) (w : Option Word) (a : Option Nat) : (raiseFault k w a s).mem = s.mem := (rfl)
@[simp] theorem raiseFault_fault (k : Fault) (w : Option Word) (a : Option Nat) : (raiseFault k w a s).fault = some ⟨k, s.pc, w, a⟩ := (rfl)
@[simp] theorem raiseFault_rngCount (k : Fault) (w : Option Word) (a : Option Nat) : (raiseFault k w a s).rngCount = s.rngCount := (rfl)
@[simp] theorem getV_raiseFault (k : Fault) (w : Option Word) (a : Option Nat) (r : RegIdx) : getV (raiseFault k w a s) r = getV s r := (rfl)
@[simp] theorem keyPressed_raiseFault (f : Fault) (w : Option Word) (a : Option Nat) (k : KeyIdx) : keyPressed (raiseFault f w a s) k = keyPressed s k := (rfl)
@[simp] theorem fbGet_raiseFault (k : Fault) (w : Option Word) (a : Option Nat) (p q : Nat) : fbGet (raiseFault k w a s) p q = fbGet s p q := (rfl)
@[simp] theorem readByte_raiseFault (k : Fault) (w : Option Word) (a : Option Nat) (d : Nat) : readByte (raiseFault k w a s) d = readByte s d := (rfl)

/-! ### dataFault -/

@[simp] theorem dataFault_v (w : Word) : (dataFault w s).v = s.v := (rfl)
@[simp] theorem dataFault_i (w : Word) : (dataFault w s).i = s.i := (rfl)
@[simp] theorem dataFault_pc (w : Word) : (dataFault w s).pc = s.pc := (rfl)
@[simp] theorem dataFault_sp (w : Word) : (dataFault w s).sp = s.sp := (rfl)
@[simp] theorem dataFault_stack (w : Word) : (dataFault w s).stack = s.stack := (rfl)
@[simp] theorem dataFault_dt (w : Word) : (dataFault w s).dt = s.dt := (rfl)
@[simp] theorem dataFault_st (w : Word) : (dataFault w s).st = s.st := (rfl)
@[simp] theorem dataFault_pressed (w : Word) : (dataFault w s).pressed = s.pressed := (rfl)
@[simp] theorem dataFault_latch (w : Word) : (dataFault w s).latch = s.latch := (rfl)
@[simp] theorem dataFault_keyWait (w : Word) : (dataFault w s).keyWait = s.keyWait := (rfl)
@[simp] theorem dataFault_fb (w : Word) : (dataFault w s).fb = s.fb := (rfl)
@[simp] theorem dataFault_dirty (w : Word) : (dataFault w s).dirty = s.dirty := (rfl)
@[simp] theorem dataFault_mem (w : Word) : (dataFault w s).mem = s.mem := (rfl)
@[simp] theorem dataFault_fault (w : Word) : (dataFault w s).fault = some ⟨.memoryOutOfBounds, s.pc, some w, some (firstBadAddr s)⟩ := (rfl)
@[simp] theorem dataFault_rngCount (w : Word) : (dataFault w s).rngCount = s.rngCount := (rfl)
@[simp] theorem getV_dataFault (w : Word) (r : RegIdx) : getV (dataFault w s) r = getV s r := (rfl)
@[simp] theorem keyPressed_dataFault (w : Word) (k : KeyIdx) : keyPressed (dataFault w s) k = keyPressed s k := (rfl)
@[simp] theorem fbGet_dataFault (w : Word) (p q : Nat) : fbGet (dataFault w s) p q = fbGet s p q := (rfl)
@[simp] theorem readByte_dataFault (w : Word) (d : Nat) : readByte (dataFault w s) d = readByte s d := (rfl)

end Sys2Proof.Machine
end

