-- ==== Sys2Proof/Laws/Memory.lean ====
section
/-! SUPPORT. Laws of memory: a read after a write, and that every memory operation keeps the canonical form. -/

namespace Sys2Proof.Machine

theorem memFind_memInsert (m : Memory) (a d : Nat) (b : Byte) :
    memFind d (memInsert a b m) = if d = a then some b else memFind d m := by
  induction m with
  | nil => simp [memInsert, memFind, eq_comm]
  | cons c m ih =>
    obtain ⟨k, v⟩ := c
    simp only [memInsert]
    split
    · simp [memFind, eq_comm]
    · split
      · rename_i h
        subst h
        by_cases hd : d = a
        · simp [memFind, hd]
        · simp [memFind, hd, Ne.symm hd]
      · rename_i h
        simp only [memFind, ih]
        by_cases hd : k = d
        · have : d ≠ a := fun e => h (by rw [← e, hd])
          simp [hd, this]
        · simp [hd]

theorem memFind_memErase (m : Memory) (a d : Nat) :
    memFind d (memErase a m) = if d = a then none else memFind d m := by
  induction m with
  | nil => simp [memErase, memFind]
  | cons c m ih =>
    simp only [memErase, memFind]
    by_cases hc : c.1 = a
    · rw [if_pos hc, ih]
      by_cases hd : d = a
      · rw [if_pos hd, if_pos hd]
      · rw [if_neg hd, if_neg hd, if_neg (by omega)]
    · rw [if_neg hc]
      simp only [memFind, ih]
      by_cases hd : c.1 = d
      · rw [if_pos hd, if_pos hd, if_neg (by omega)]
      · rw [if_neg hd, if_neg hd]

/-- A read after a write to the same address gives the byte written; every other address reads as before. -/
theorem memRead_memWrite (m : Memory) (a d : Nat) (b : Byte) :
    memRead (memWrite m a b) d = if d = a ∧ a < 4096 then b else memRead m d := by
  unfold memWrite memRead
  by_cases ha : a < 4096
  · simp only [ha, if_true, and_true]
    split
    · rename_i hb
      rw [memFind_memErase]
      by_cases hd : d = a
      · simp [hd, hb]
      · simp [hd]
    · rw [memFind_memInsert]
      by_cases hd : d = a <;> simp [hd]
  · simp [ha]

theorem mem_memInsert {m : Memory} {a : Nat} {b : Byte} {c : Host.Cell} (h : c ∈ memInsert a b m) :
    c = (a, b) ∨ c ∈ m := by
  induction m with
  | nil => simpa [memInsert] using h
  | cons e m ih =>
    unfold memInsert at h
    split at h
    · simpa using h
    · split at h
      · rcases List.mem_cons.mp h with h | h
        · exact .inl h
        · exact .inr (by simp [h])
      · rcases List.mem_cons.mp h with h | h
        · exact .inr (by simp [h])
        · rcases ih h with h | h
          · exact .inl h
          · exact .inr (by simp [h])

theorem mem_memErase {m : Memory} {a : Nat} {c : Host.Cell} (h : c ∈ memErase a m) : c ∈ m := by
  induction m with
  | nil => simp [memErase] at h
  | cons e m ih =>
    unfold memErase at h
    split at h
    · simp [ih h]
    · rcases List.mem_cons.mp h with h | h
      · simp [h]
      · simp [ih h]

theorem pairwise_memInsert {m : Memory} (hm : m.Pairwise fun c d => c.1 < d.1) (a : Nat) (b : Byte) :
    (memInsert a b m).Pairwise fun c d => c.1 < d.1 := by
  induction m with
  | nil => simp [memInsert]
  | cons e m ih =>
    rw [List.pairwise_cons] at hm
    unfold memInsert
    split
    · rename_i h
      refine List.pairwise_cons.mpr ⟨?_, List.pairwise_cons.mpr hm⟩
      intro c hc
      rcases List.mem_cons.mp hc with hc | hc
      · simpa [hc] using h
      · have := hm.1 c hc
        simp only
        omega
    · split
      · rename_i h
        refine List.pairwise_cons.mpr ⟨?_, hm.2⟩
        intro c hc
        simpa [h] using hm.1 c hc
      · refine List.pairwise_cons.mpr ⟨?_, ih hm.2⟩
        intro c hc
        rcases mem_memInsert hc with rfl | hc
        · simp only
          omega
        · exact hm.1 c hc

theorem pairwise_memErase {m : Memory} (hm : m.Pairwise fun c d => c.1 < d.1) (a : Nat) :
    (memErase a m).Pairwise fun c d => c.1 < d.1 := by
  induction m with
  | nil => simp [memErase]
  | cons e m ih =>
    rw [List.pairwise_cons] at hm
    unfold memErase
    split
    · exact ih hm.2
    · exact List.pairwise_cons.mpr ⟨fun c hc => hm.1 c (mem_memErase hc), ih hm.2⟩

/-- A write keeps the canonical form. -/
theorem wf_memWrite {m : Memory} (hm : Memory.wf m) (a : Nat) (b : Byte) : Memory.wf (memWrite m a b) := by
  unfold memWrite
  split
  · rename_i ha
    split
    · exact ⟨pairwise_memErase hm.1 a, fun c hc => hm.2 c (mem_memErase hc)⟩
    · rename_i hb
      refine ⟨pairwise_memInsert hm.1 a b, fun c hc => ?_⟩
      rcases mem_memInsert hc with rfl | hc
      · exact ⟨ha, hb⟩
      · exact hm.2 c hc
  · exact hm

theorem wf_memWriteBytes {m : Memory} (hm : Memory.wf m) (a : Nat) (bs : List Byte) :
    Memory.wf (memWriteBytes a bs m) := by
  induction bs generalizing a m with
  | nil => exact hm
  | cons b bs ih => exact ih (wf_memWrite hm a b) (a + 1)

/-- What consecutive writes leave: the written bytes at their addresses, every other address as before. -/
theorem memRead_memWriteBytes (m : Memory) (a : Nat) (bs : List Byte) (hr : a + bs.length ≤ 4096)
    (d : Nat) : memRead (memWriteBytes a bs m) d =
      if h : a ≤ d ∧ d - a < bs.length then bs[d - a] else memRead m d := by
  induction bs generalizing a m with
  | nil => simp [memWriteBytes]
  | cons b bs ih =>
    simp only [List.length_cons] at hr
    simp only [memWriteBytes]
    rw [ih (memWrite m a b) (a + 1) (by omega)]
    by_cases h1 : a + 1 ≤ d ∧ d - (a + 1) < bs.length
    · have h2 : a ≤ d ∧ d - a < (b :: bs).length := by simp only [List.length_cons]; omega
      rw [dif_pos h1, dif_pos h2]
      have : d - a = (d - (a + 1)) + 1 := by omega
      simp [this]
    · rw [dif_neg h1, memRead_memWrite]
      by_cases hd : d = a
      · subst hd
        have : d < 4096 := by omega
        simp [this]
      · have h2 : ¬ (a ≤ d ∧ d - a < (b :: bs).length) := by simp only [List.length_cons]; omega
        rw [dif_neg h2, if_neg (by simp [hd])]

/-- What `storeBytes` leaves in memory. -/
theorem readByte_storeBytes (s : State) (a : Nat) (bs : List Byte) (hr : a + bs.length ≤ 4096)
    (d : Nat) : readByte (storeBytes a bs s) d =
      if h : a ≤ d ∧ d - a < bs.length then bs[d - a] else readByte s d :=
  memRead_memWriteBytes s.mem a bs hr d

theorem wf_reset_mem : Memory.wf State.reset.mem := ⟨.nil, by simp [State.reset]⟩

/-- An address no cell lists reads as its reset byte. -/
theorem memRead_nil (a : Nat) : memRead [] a = resetByte a := rfl

end Sys2Proof.Machine
end

