-- ==== Sys2Proof/Laws/Registers.lean ====
section
/-! SUPPORT. Laws of the register file, the stack, the timers and the flags: what each named operation can do, once. -/

namespace Sys2Proof.Machine

theorem getV_setV (s : State) (x r : RegIdx) (b : Byte) :
    getV (setV x b s) r = if r = x then b else getV s r := by
  unfold getV setV
  simp only [Vector.getElem_set]
  by_cases h : r = x
  · simp [h]
  · have : x.toNat ≠ r.toNat := fun e => h (BitVec.eq_of_toNat_eq e.symm)
    simp [h, this]

/-- The result is kept in V[x] unless x is F; VF always holds the flag (43_alu R173). -/
theorem getV_setResultAndFlag (s : State) (x r : RegIdx) (a b : Byte) :
    getV (setResultAndFlag x a b s) r = if r = regF then b else if r = x then a else getV s r := by
  simp only [setResultAndFlag, getV_setV]

/-- `LD Vx, [I]` sets V0 to Vx and nothing above. -/
theorem getV_loadUpTo (s : State) (x r : RegIdx) :
    getV (loadUpTo x s) r = if r ≤ x then readByte s (effAddr s r.toNat) else getV s r := by
  unfold getV loadUpTo
  simp [BitVec.le_def]

@[simp] theorem length_regsUpTo (s : State) (x : RegIdx) : (regsUpTo s x).length = x.toNat + 1 := by
  simp [regsUpTo]

theorem getElem_regsUpTo (s : State) (x : RegIdx) (k : Nat) (h : k < (regsUpTo s x).length) :
    (regsUpTo s x)[k] = getV s (BitVec.ofNat 4 k) := by
  simp [regsUpTo]

@[simp] theorem length_bcdDigits (b : Byte) : (bcdDigits b).length = 3 := rfl

/-- `push` succeeds exactly below depth 16, writes `stack[sp]` and counts it. -/
theorem push_eq_some {a : Word} {s t : State} (h : push a s = some t) :
    ∃ hs : s.sp.val < 16, t = { s with stack := s.stack.set s.sp.val a hs, sp := ⟨s.sp.val + 1, by omega⟩ } := by
  unfold push at h
  split at h
  · rename_i hs
    exact ⟨hs, by simpa using h.symm⟩
  · cases h

theorem push_of_lt {a : Word} {s : State} (hs : s.sp.val < 16) :
    push a s = some { s with stack := s.stack.set s.sp.val a hs, sp := ⟨s.sp.val + 1, by omega⟩ } := by
  unfold push
  rw [dif_pos hs]

theorem push_eq_none {a : Word} {s : State} : push a s = none ↔ s.sp.val = 16 := by
  have := s.sp.isLt
  unfold push
  split <;> simp <;> omega

/-- `pop` succeeds exactly above depth 0, answers `stack[sp - 1]` and uncounts it. -/
theorem pop_eq_some {a : Word} {s t : State} (h : pop s = some (a, t)) :
    ∃ _ : s.sp.val ≠ 0, a = s.stack[s.sp.val - 1]'(by omega) ∧ t = { s with sp := ⟨s.sp.val - 1, by omega⟩ } := by
  unfold pop at h
  split at h
  · rename_i hs
    simp only [Option.some.injEq, Prod.mk.injEq] at h
    exact ⟨hs, h.1.symm, h.2.symm⟩
  · cases h

theorem pop_of_ne {s : State} (hs : s.sp.val ≠ 0) :
    pop s = some (s.stack[s.sp.val - 1]'(by omega), { s with sp := ⟨s.sp.val - 1, by omega⟩ }) := by
  unfold pop
  rw [dif_pos hs]

theorem pop_eq_none {s : State} : pop s = none ↔ s.sp.val = 0 := by
  unfold pop
  split <;> simp <;> omega

/-- A timer counts down by one and stops at 0 (60_exceptions R244). -/
theorem countDown_toNat (b : Byte) : (countDown b).toNat = b.toNat - 1 := by
  unfold countDown
  split
  · simp [*]
  · bv_omega

/-- A key index below 16, and none for any other value (60_exceptions R236). -/
theorem keyOf_eq_some {b : Byte} {k : KeyIdx} : keyOf b = some k ↔ b.toNat = k.toNat := by
  have := k.isLt
  unfold keyOf
  split
  · rename_i h
    simp only [Option.some.injEq]
    constructor
    · rintro rfl
      simp
      omega
    · intro e
      apply BitVec.eq_of_toNat_eq
      simp
      omega
  · simp
    omega

theorem keyOf_eq_none {b : Byte} : keyOf b = none ↔ 16 ≤ b.toNat := by
  unfold keyOf
  split <;> simp <;> omega

@[simp] theorem byteOfKey_toNat (k : KeyIdx) : (byteOfKey k).toNat = k.toNat := by
  have := k.isLt
  simp [byteOfKey]
  omega

@[simp] theorem addrOf_toNat (nnn : Addr12) : (addrOf nnn).toNat = nnn.toNat := by
  have := nnn.isLt
  simp [addrOf]
  omega

@[simp] theorem offsetTarget_toNat (nnn : Addr12) (b : Byte) :
    (offsetTarget nnn b).toNat = nnn.toNat + b.toNat := by
  have := nnn.isLt
  have := b.isLt
  simp [offsetTarget]
  omega

@[simp] theorem glyphAddr_toNat (b : Byte) : (glyphAddr b).toNat = b.toNat * 5 := by
  have := b.isLt
  simp [glyphAddr]
  omega

@[simp] theorem indexPlus_toNat (i : Word) (b : Byte) :
    (indexPlus i b).toNat = (i.toNat + b.toNat) % 65536 := by
  simp [indexPlus]

/-- A flag read as a number. -/
theorem flagByte_toNat (c : Bool) : (flagByte c).toNat = if c = true then 1 else 0 := by
  cases c <;> decide

theorem dataInRange_iff (s : State) (n : Nat) :
    dataInRange s n = true ↔ ∀ k, k < n → effAddr s k < 4096 := by
  simp only [dataInRange, effAddr, Bool.or_eq_true, beq_iff_eq, decide_eq_true_eq]
  constructor
  · intro h k hk
    omega
  · intro h
    by_cases h0 : n = 0
    · exact .inl h0
    · exact .inr (h (n - 1) (by omega))

end Sys2Proof.Machine
end

