-- ==== Sys2Proof/Laws/Cycle.lean ====
section
/-! SUPPORT. Laws of the step cycle: the phases of a step, once, and what the key-wait resolution and the timer tick do. -/

namespace Sys2Proof.Machine

@[simp] theorem fetchWord_timerTick (s : State) : fetchWord (timerTick s) = fetchWord s := rfl

/-- How a step begins: halted, key-wait, stall, fetch fault, decode fault, or an instruction executes (60_exceptions R240). -/
theorem beginStep_cases (s : State) :
    (∃ r, s.fault = some r ∧ beginStep s = .done s) ∨
    (s.fault = none ∧ ∃ r, s.keyWait = some r ∧ beginStep s = .done (keyWaitStep r s)) ∨
    (s.fault = none ∧ s.keyWait = none ∧ 4096 ≤ s.pc.toNat ∧ beginStep s = .done (timerTick s)) ∨
    (s.fault = none ∧ s.keyWait = none ∧ s.pc.toNat = 0xFFF ∧
      beginStep s = .done (raiseFault .fetchOutOfBounds none none (timerTick s))) ∨
    (Fetches s ∧ ∃ why, decodeWord (fetchWord s) = .illegal why ∧
      beginStep s = .done (raiseFault .decodeError (some (fetchWord s)) none (timerTick s))) ∨
    (Fetches s ∧ ∃ i, decodeWord (fetchWord s) = .instr i ∧ beginStep s = .execute i (timerTick s)) := by
  have hbegin : beginStep s = match s.fault with
    | some _ => .done s
    | none =>
      match s.keyWait with
      | some r => .done (keyWaitStep r s)
      | none => fetchDecode (timerTick s) := rfl
  have hfetch : fetchDecode (timerTick s) =
      if 4096 ≤ s.pc.toNat then .done (timerTick s)
      else if s.pc.toNat = 0xFFF then .done (raiseFault .fetchOutOfBounds none none (timerTick s))
      else match decodeWord (fetchWord s) with
        | .instr i => .execute i (timerTick s)
        | .illegal _ => .done (raiseFault .decodeError (some (fetchWord s)) none (timerTick s)) := rfl
  rcases hf : s.fault with _ | r
  · rcases hk : s.keyWait with _ | r
    · rw [hf, hk] at hbegin
      refine .inr (.inr ?_)
      by_cases h1 : 4096 ≤ s.pc.toNat
      · exact .inl ⟨rfl, rfl, h1, by rw [hbegin, hfetch, if_pos h1]⟩
      · by_cases h2 : s.pc.toNat = 0xFFF
        · exact .inr (.inl ⟨rfl, rfl, h2, by rw [hbegin, hfetch, if_neg h1, if_pos h2]⟩)
        · have hs : Fetches s := ⟨hf, hk, by omega⟩
          rw [if_neg h1, if_neg h2] at hfetch
          rcases hd : decodeWord (fetchWord s) with i | why
          · exact .inr (.inr (.inr ⟨hs, i, rfl, by rw [hbegin, hfetch, hd]⟩))
          · exact .inr (.inr (.inl ⟨hs, why, rfl, by rw [hbegin, hfetch, hd]⟩))
    · exact .inr (.inl ⟨rfl, r, rfl, by rw [hbegin, hf, hk]⟩)
  · exact .inl ⟨r, rfl, by rw [hbegin, hf]⟩

/-- Everything a step can do: nothing when halted, the key-wait resolution, the stall, the two faults of the cycle, or one instruction after the tick. -/
theorem step_cases (s : State) :
    (∃ r, s.fault = some r ∧ step s = .next s) ∨
    (s.fault = none ∧ ∃ r, s.keyWait = some r ∧ step s = .next (keyWaitStep r s)) ∨
    (s.fault = none ∧ s.keyWait = none ∧ 4096 ≤ s.pc.toNat ∧ step s = .next (timerTick s)) ∨
    (s.fault = none ∧ s.keyWait = none ∧ s.pc.toNat = 0xFFF ∧
      step s = .next (raiseFault .fetchOutOfBounds none none (timerTick s))) ∨
    (Fetches s ∧ ∃ why, decodeWord (fetchWord s) = .illegal why ∧
      step s = .next (raiseFault .decodeError (some (fetchWord s)) none (timerTick s))) ∨
    (Fetches s ∧ ∃ i, decodeWord (fetchWord s) = .instr i ∧ step s = exec i (timerTick s)) := by
  unfold step
  rcases beginStep_cases s with ⟨r, h, e⟩ | ⟨h, r, hk, e⟩ | ⟨h, hk, hp, e⟩ | ⟨h, hk, hp, e⟩ | ⟨h, w, hd, e⟩ | ⟨h, i, hd, e⟩
  · exact .inl ⟨r, h, by rw [e]⟩
  · exact .inr (.inl ⟨h, r, hk, by rw [e]⟩)
  · exact .inr (.inr (.inl ⟨h, hk, hp, by rw [e]⟩))
  · exact .inr (.inr (.inr (.inl ⟨h, hk, hp, by rw [e]⟩)))
  · exact .inr (.inr (.inr (.inr (.inl ⟨h, w, hd, by rw [e]⟩))))
  · exact .inr (.inr (.inr (.inr (.inr ⟨h, i, hd, by rw [e]⟩))))

/-- The key-wait resolution with a latched key (40_step_cycle R102). -/
theorem keyWaitStep_some {s : State} {k : KeyIdx} (r : RegIdx) (h : s.latch = some k) :
    keyWaitStep r s = setKeyWait none (setV r (byteOfKey k) { s with latch := none }) := by
  simp [keyWaitStep, latchConsume, h]

/-- The key-wait resolution with no latched key changes nothing (40_step_cycle R102). -/
theorem keyWaitStep_none {s : State} (r : RegIdx) (h : s.latch = none) : keyWaitStep r s = s := by
  simp [keyWaitStep, latchConsume, h]

end Sys2Proof.Machine
end

