-- ==== Sys2Proof/Laws/Decode.lean ====
section
/-! SUPPORT. The fields of a word built from fields, and the word rebuilt from its fields (30_encoding R71). -/

namespace Sys2Proof

/-! ### op, nnn -/

@[simp] theorem fieldOp_nnn (a : Nibble) (nnn : Addr12) : fieldOp (a ++ nnn) = a := by
  apply BitVec.eq_of_getLsbD_eq; intro i hi
  change BitVec.getLsbD (BitVec.extractLsb' (n := 4 + 12) 12 4 (a ++ nnn)) i = _
  interval_cases i <;> simp only [BitVec.getLsbD_extractLsb', BitVec.getLsbD_append] <;> simp

@[simp] theorem fieldNnn_nnn (a : Nibble) (nnn : Addr12) : fieldNnn (a ++ nnn) = nnn := by
  apply BitVec.eq_of_getLsbD_eq; intro i hi
  change BitVec.getLsbD (BitVec.extractLsb' (n := 4 + 12) 0 12 (a ++ nnn)) i = _
  interval_cases i <;> simp only [BitVec.getLsbD_extractLsb', BitVec.getLsbD_append] <;> simp

@[simp] theorem fieldX_nnn (a : Nibble) (nnn : Addr12) : fieldX (a ++ nnn) = nnn.extractLsb' 8 4 := by
  apply BitVec.eq_of_getLsbD_eq; intro i hi
  change BitVec.getLsbD (BitVec.extractLsb' (n := 4 + 12) 8 4 (a ++ nnn)) i = _
  interval_cases i <;> simp only [BitVec.getLsbD_extractLsb', BitVec.getLsbD_append] <;> simp

theorem word_eq_op_nnn (w : Word) : (fieldOp w ++ fieldNnn w : Word) = w := by
  apply BitVec.eq_of_getLsbD_eq; intro i hi
  unfold fieldOp fieldNnn
  interval_cases i <;> simp only [BitVec.getLsbD_extractLsb', BitVec.getLsbD_append] <;> simp

/-! ### op, x, kk -/

@[simp] theorem fieldOp_xkk (a : Nibble) (x : RegIdx) (kk : Byte) : fieldOp (a ++ x ++ kk) = a := by
  apply BitVec.eq_of_getLsbD_eq; intro i hi
  change BitVec.getLsbD (BitVec.extractLsb' (n := 4 + 4 + 8) 12 4 (a ++ x ++ kk)) i = _
  interval_cases i <;> simp only [BitVec.getLsbD_extractLsb', BitVec.getLsbD_append] <;> simp

@[simp] theorem fieldX_xkk (a : Nibble) (x : RegIdx) (kk : Byte) : fieldX (a ++ x ++ kk) = x := by
  apply BitVec.eq_of_getLsbD_eq; intro i hi
  change BitVec.getLsbD (BitVec.extractLsb' (n := 4 + 4 + 8) 8 4 (a ++ x ++ kk)) i = _
  interval_cases i <;> simp only [BitVec.getLsbD_extractLsb', BitVec.getLsbD_append] <;> simp

@[simp] theorem fieldKk_xkk (a : Nibble) (x : RegIdx) (kk : Byte) : fieldKk (a ++ x ++ kk) = kk := by
  apply BitVec.eq_of_getLsbD_eq; intro i hi
  change BitVec.getLsbD (BitVec.extractLsb' (n := 4 + 4 + 8) 0 8 (a ++ x ++ kk)) i = _
  interval_cases i <;> simp only [BitVec.getLsbD_extractLsb', BitVec.getLsbD_append] <;> simp

theorem word_eq_op_x_kk (w : Word) : (fieldOp w ++ fieldX w ++ fieldKk w : Word) = w := by
  apply BitVec.eq_of_getLsbD_eq; intro i hi
  unfold fieldOp fieldX fieldKk
  interval_cases i <;> simp only [BitVec.getLsbD_extractLsb', BitVec.getLsbD_append] <;> simp

/-! ### op, x, y, n -/

@[simp] theorem fieldOp_xyn (a : Nibble) (x y : RegIdx) (n : Nibble) : fieldOp (a ++ x ++ y ++ n) = a := by
  apply BitVec.eq_of_getLsbD_eq; intro i hi
  change BitVec.getLsbD (BitVec.extractLsb' (n := 4 + 4 + 4 + 4) 12 4 (a ++ x ++ y ++ n)) i = _
  interval_cases i <;> simp only [BitVec.getLsbD_extractLsb', BitVec.getLsbD_append] <;> simp

@[simp] theorem fieldX_xyn (a : Nibble) (x y : RegIdx) (n : Nibble) : fieldX (a ++ x ++ y ++ n) = x := by
  apply BitVec.eq_of_getLsbD_eq; intro i hi
  change BitVec.getLsbD (BitVec.extractLsb' (n := 4 + 4 + 4 + 4) 8 4 (a ++ x ++ y ++ n)) i = _
  interval_cases i <;> simp only [BitVec.getLsbD_extractLsb', BitVec.getLsbD_append] <;> simp

@[simp] theorem fieldY_xyn (a : Nibble) (x y : RegIdx) (n : Nibble) : fieldY (a ++ x ++ y ++ n) = y := by
  apply BitVec.eq_of_getLsbD_eq; intro i hi
  change BitVec.getLsbD (BitVec.extractLsb' (n := 4 + 4 + 4 + 4) 4 4 (a ++ x ++ y ++ n)) i = _
  interval_cases i <;> simp only [BitVec.getLsbD_extractLsb', BitVec.getLsbD_append] <;> simp

@[simp] theorem fieldN_xyn (a : Nibble) (x y : RegIdx) (n : Nibble) : fieldN (a ++ x ++ y ++ n) = n := by
  apply BitVec.eq_of_getLsbD_eq; intro i hi
  change BitVec.getLsbD (BitVec.extractLsb' (n := 4 + 4 + 4 + 4) 0 4 (a ++ x ++ y ++ n)) i = _
  interval_cases i <;> simp only [BitVec.getLsbD_extractLsb', BitVec.getLsbD_append] <;> simp

theorem word_eq_op_x_y_n (w : Word) : (fieldOp w ++ fieldX w ++ fieldY w ++ fieldN w : Word) = w := by
  apply BitVec.eq_of_getLsbD_eq; intro i hi
  unfold fieldOp fieldX fieldY fieldN
  interval_cases i <;> simp only [BitVec.getLsbD_extractLsb', BitVec.getLsbD_append] <;> simp

/-! ### Bytes -/

/-- The two bytes of a word, in fetch order, are the word again (20_memory R57). -/
@[simp] theorem wordOfBytes_bytes (w : Word) :
    wordOfBytes (w.extractLsb' 8 8) (w.extractLsb' 0 8) = w := by
  apply BitVec.eq_of_getLsbD_eq; intro i hi
  change BitVec.getLsbD (w := 8 + 8) (w.extractLsb' 8 8 ++ w.extractLsb' 0 8) i = _
  interval_cases i <;> simp only [BitVec.getLsbD_extractLsb', BitVec.getLsbD_append] <;> simp

/-- nibble1 of nnn is x of the word. -/
theorem fieldX_eq_nnn (w : Word) : (fieldNnn w).extractLsb' 8 4 = fieldX w := by
  apply BitVec.eq_of_getLsbD_eq; intro i hi
  unfold fieldNnn fieldX
  interval_cases i <;> simp

/-! ### Decoding by major opcode -/

section
variable {w : Word}

theorem decodeWord_op0 (h : fieldOp w = 0x0#4) :
    decodeWord w = decodeGroup0 w := by
  simp [decodeWord, h]

theorem decodeWord_op1 (h : fieldOp w = 0x1#4) :
    decodeWord w = .instr (.jp (fieldNnn w)) := by
  simp [decodeWord, h]

theorem decodeWord_op2 (h : fieldOp w = 0x2#4) :
    decodeWord w = .instr (.call (fieldNnn w)) := by
  simp [decodeWord, h]

theorem decodeWord_op3 (h : fieldOp w = 0x3#4) :
    decodeWord w = .instr (.seImm (fieldX w) (fieldKk w)) := by
  simp [decodeWord, h]

theorem decodeWord_op4 (h : fieldOp w = 0x4#4) :
    decodeWord w = .instr (.sneImm (fieldX w) (fieldKk w)) := by
  simp [decodeWord, h]

theorem decodeWord_op5 (h : fieldOp w = 0x5#4) :
    decodeWord w = if fieldN w = 0x0#4 then .instr (.seReg (fieldX w) (fieldY w)) else .illegal (.group5 w) := by
  simp [decodeWord, h]

theorem decodeWord_op6 (h : fieldOp w = 0x6#4) :
    decodeWord w = .instr (.ldImm (fieldX w) (fieldKk w)) := by
  simp [decodeWord, h]

theorem decodeWord_op7 (h : fieldOp w = 0x7#4) :
    decodeWord w = .instr (.addImm (fieldX w) (fieldKk w)) := by
  simp [decodeWord, h]

theorem decodeWord_op8 (h : fieldOp w = 0x8#4) :
    decodeWord w = decodeGroup8 w := by
  simp [decodeWord, h]

theorem decodeWord_op9 (h : fieldOp w = 0x9#4) :
    decodeWord w = if fieldN w = 0x0#4 then .instr (.sneReg (fieldX w) (fieldY w)) else .illegal (.group9 w) := by
  simp [decodeWord, h]

theorem decodeWord_opA (h : fieldOp w = 0xA#4) :
    decodeWord w = .instr (.ldI (fieldNnn w)) := by
  simp [decodeWord, h]

theorem decodeWord_opB (h : fieldOp w = 0xB#4) :
    decodeWord w = .instr (.jpV0 (fieldNnn w)) := by
  simp [decodeWord, h]

theorem decodeWord_opC (h : fieldOp w = 0xC#4) :
    decodeWord w = .instr (.rnd (fieldX w) (fieldKk w)) := by
  simp [decodeWord, h]

theorem decodeWord_opD (h : fieldOp w = 0xD#4) :
    decodeWord w = .instr (.drw (fieldX w) (fieldY w) (fieldN w)) := by
  simp [decodeWord, h]

theorem decodeWord_opE (h : fieldOp w = 0xE#4) :
    decodeWord w = decodeGroupE w := by
  simp [decodeWord, h]

theorem decodeWord_opF (h : fieldOp w = 0xF#4) :
    decodeWord w = decodeGroupF w := by
  simp [decodeWord, h]

end

/-- A nibble is one of its sixteen values. -/
theorem nibble_cases (a : Nibble) :
    a = 0x0#4 ∨ a = 0x1#4 ∨ a = 0x2#4 ∨ a = 0x3#4 ∨ a = 0x4#4 ∨ a = 0x5#4 ∨ a = 0x6#4 ∨ a = 0x7#4 ∨
    a = 0x8#4 ∨ a = 0x9#4 ∨ a = 0xA#4 ∨ a = 0xB#4 ∨ a = 0xC#4 ∨ a = 0xD#4 ∨ a = 0xE#4 ∨ a = 0xF#4 := by
  revert a
  decide

end Sys2Proof
end

