-- ==== Sys2Proof/Laws/Display.lean ====
section
/-! SUPPORT. Laws of the framebuffer controller and of drawing: the pixels a sprite toggles, its collisions and the dirty flag
(42_display R151, 60_exceptions R248, R249). -/

namespace Sys2Proof.Machine

theorem fbGet_fbPut (s : State) (x y p q : Nat) (on : Bool) :
    fbGet (fbPut x y on s) p q = if p % 64 = x % 64 ∧ q % 32 = y % 32 then on else fbGet s p q := by
  unfold fbGet fbPut
  simp only [Vector.getElem_set]
  by_cases hx : x % 64 = p % 64
  · by_cases hy : y % 32 = q % 32
    · simp [hx, hy]
    · have hy' : ¬ q % 32 = y % 32 := fun e => hy e.symm
      simp [hx, hy, hy']
  · have hx' : ¬ p % 64 = x % 64 := fun e => hx e.symm
    simp [hx, hx']

/-- `FB_set` XORs its one cell and leaves every other pixel. -/
theorem fbGet_fbSet (s : State) (x y p q : Nat) (on : Bool) :
    fbGet (fbSet x y on s).1 p q = if p % 64 = x % 64 ∧ q % 32 = y % 32 then fbGet s x y ^^ on else fbGet s p q :=
  fbGet_fbPut s x y p q (fbGet s x y ^^ on)

theorem fbGet_congr (s : State) {x y p q : Nat} (hx : p % 64 = x % 64) (hy : q % 32 = y % 32) :
    fbGet s p q = fbGet s x y := by
  unfold fbGet
  simp [hx, hy]

/-- `FB_clear` leaves no pixel set. -/
@[simp] theorem fbGet_fbClear (s : State) (p q : Nat) : fbGet (fbClear s) p q = false := by
  simp [fbGet, fbClear]

/-- The column offset of pixel p in a row whose left end is at cx. -/
def colOf (cx p : Nat) : Nat := (p % 64 + 64 - cx % 64) % 64

/-- The row offset of pixel q in a sprite whose top is at cy. -/
def rowOf (cy q : Nat) : Nat := (q % 32 + 32 - cy % 32) % 32

theorem colOf_eq {cx p col : Nat} (hc : col < 64) : colOf cx p = col ↔ p % 64 = (cx + col) % 64 := by
  unfold colOf
  omega

theorem rowOf_eq {cy q row : Nat} (hr : row < 32) : rowOf cy q = row ↔ q % 32 = (cy + row) % 32 := by
  unfold rowOf
  omega

/-- Only the framebuffer and the dirty flag differ. -/
def DrawnFrom (s t : State) : Prop := t = { s with fb := t.fb, dirty := t.dirty }

theorem DrawnFrom.refl (s : State) : DrawnFrom s s := rfl

theorem DrawnFrom.trans {s t u : State} (h : DrawnFrom s t) (k : DrawnFrom t u) : DrawnFrom s u := by
  unfold DrawnFrom at *
  rw [k, h]

theorem DrawnFrom.v_eq {s t : State} (h : DrawnFrom s t) : t.v = s.v := by rw [show t = _ from h]
theorem DrawnFrom.i_eq {s t : State} (h : DrawnFrom s t) : t.i = s.i := by rw [show t = _ from h]
theorem DrawnFrom.pc_eq {s t : State} (h : DrawnFrom s t) : t.pc = s.pc := by rw [show t = _ from h]
theorem DrawnFrom.sp_eq {s t : State} (h : DrawnFrom s t) : t.sp = s.sp := by rw [show t = _ from h]
theorem DrawnFrom.stack_eq {s t : State} (h : DrawnFrom s t) : t.stack = s.stack := by rw [show t = _ from h]
theorem DrawnFrom.dt_eq {s t : State} (h : DrawnFrom s t) : t.dt = s.dt := by rw [show t = _ from h]
theorem DrawnFrom.st_eq {s t : State} (h : DrawnFrom s t) : t.st = s.st := by rw [show t = _ from h]
theorem DrawnFrom.pressed_eq {s t : State} (h : DrawnFrom s t) : t.pressed = s.pressed := by rw [show t = _ from h]
theorem DrawnFrom.latch_eq {s t : State} (h : DrawnFrom s t) : t.latch = s.latch := by rw [show t = _ from h]
theorem DrawnFrom.keyWait_eq {s t : State} (h : DrawnFrom s t) : t.keyWait = s.keyWait := by rw [show t = _ from h]
theorem DrawnFrom.mem_eq {s t : State} (h : DrawnFrom s t) : t.mem = s.mem := by rw [show t = _ from h]
theorem DrawnFrom.fault_eq {s t : State} (h : DrawnFrom s t) : t.fault = s.fault := by rw [show t = _ from h]
theorem DrawnFrom.rngCount_eq {s t : State} (h : DrawnFrom s t) : t.rngCount = s.rngCount := by rw [show t = _ from h]

theorem drawnFrom_fbSet (s : State) (x y : Nat) (on : Bool) : DrawnFrom s (fbSet x y on s).1 := rfl

/-- What the first n columns of a row do. -/
theorem drawCols_spec (b : Byte) (cx y : Nat) (acc : State × Bool) (n : Nat) (hn : n ≤ 8) :
    let r := (List.range n).foldl (drawCol b cx y) acc
    (∀ p q, fbGet r.1 p q =
      (fbGet acc.1 p q ^^ (decide (q % 32 = y % 32) && decide (colOf cx p < n) && spriteBit b (colOf cx p)))) ∧
    (r.2 = true ↔ acc.2 = true ∨ ∃ col, col < n ∧ spriteBit b col = true ∧ fbGet acc.1 (cx + col) y = true) ∧
    (r.1.dirty = true ↔ acc.1.dirty = true ∨ ∃ col, col < n ∧ spriteBit b col = true) ∧
    DrawnFrom acc.1 r.1 := by
  induction n with
  | zero => simp [DrawnFrom.refl]
  | succ n ih =>
    obtain ⟨ih1, ih2, ih3, ih4⟩ := ih (by omega)
    simp only [List.range_succ, List.foldl_append, List.foldl_cons, List.foldl_nil]
    generalize (List.range n).foldl (drawCol b cx y) acc = r at *
    have hsplit : ∀ f : Nat → Prop, (∃ col, col < n + 1 ∧ f col) ↔ (∃ col, col < n ∧ f col) ∨ f n := by
      intro f
      constructor
      · rintro ⟨c, hc, hf⟩
        by_cases h : c = n
        · exact .inr (h ▸ hf)
        · exact .inl ⟨c, by omega, hf⟩
      · rintro (⟨c, hc, hf⟩ | hf)
        · exact ⟨c, by omega, hf⟩
        · exact ⟨n, by omega, hf⟩
    unfold drawCol
    by_cases hb : spriteBit b n = true
    · rw [if_pos hb]
      have hown : fbGet r.1 (cx + n) y = fbGet acc.1 (cx + n) y := by
        rw [ih1]
        have : colOf cx (cx + n) = n := (colOf_eq (by omega)).2 rfl
        simp [this]
      refine ⟨fun p q => ?_, ?_, ?_, ih4.trans (drawnFrom_fbSet _ _ _ _)⟩
      · rw [fbGet_fbSet]
        by_cases hp : p % 64 = (cx + n) % 64 ∧ q % 32 = y % 32
        · rw [if_pos hp, hown, fbGet_congr acc.1 hp.1 hp.2]
          have hc : colOf cx p = n := (colOf_eq (by omega)).2 hp.1
          simp [hp.2, hc, hb]
        · rw [if_neg hp, ih1]
          congr 1
          by_cases hq : q % 32 = y % 32
          · have hc : colOf cx p ≠ n := fun e => hp ⟨(colOf_eq (by omega)).1 e, hq⟩
            have : decide (colOf cx p < n + 1) = decide (colOf cx p < n) := by
              by_cases h : colOf cx p < n
              · simp [h, Nat.lt_succ_of_lt h]
              · simp [h]
                omega
            rw [this]
          · simp [hq]
      · rw [hsplit]
        simp only [Bool.or_eq_true, ih2, fbSet, Bool.true_and, hown, hb, true_and, or_assoc]
      · rw [hsplit]
        simp [hb]
    · rw [if_neg hb]
      refine ⟨fun p q => ?_, ?_, ?_, ih4⟩
      · rw [ih1]
        congr 1
        by_cases hc : colOf cx p = n
        · simp [hc, hb]
        · have : decide (colOf cx p < n + 1) = decide (colOf cx p < n) := by
            by_cases h : colOf cx p < n
            · simp [h, Nat.lt_succ_of_lt h]
            · simp [h]
              omega
          rw [this]
      · rw [hsplit, ih2]
        simp [hb]
      · rw [hsplit, ih3]
        simp [hb]

/-- What drawing n rows does: the pixels it toggles, when it collides, when it marks dirty, and that nothing else changes. -/
theorem drawSprite_spec (s : State) (cx cy n : Nat) (hn : n ≤ 32) :
    (∀ p q, fbGet (drawSprite cx cy n s).1 p q =
      (fbGet s p q ^^ (decide (rowOf cy q < n) && decide (colOf cx p < 8) &&
        spriteBit (readByte s (effAddr s (rowOf cy q))) (colOf cx p)))) ∧
    ((drawSprite cx cy n s).2 = true ↔ ∃ row col, row < n ∧ col < 8 ∧
      spriteBit (readByte s (effAddr s row)) col = true ∧ fbGet s (cx + col) (cy + row) = true) ∧
    ((drawSprite cx cy n s).1.dirty = true ↔ s.dirty = true ∨ ∃ row col, row < n ∧ col < 8 ∧
      spriteBit (readByte s (effAddr s row)) col = true) ∧
    DrawnFrom s (drawSprite cx cy n s).1 := by
  unfold drawSprite
  induction n with
  | zero => simp [DrawnFrom.refl]
  | succ n ih =>
    obtain ⟨ih1, ih2, ih3, ih4⟩ := ih (by omega)
    simp only [List.range_succ, List.foldl_append, List.foldl_cons, List.foldl_nil]
    generalize (List.range n).foldl
      (fun acc row => drawRow (readByte s (effAddr s row)) cx (cy + row) acc) (s, false) = r at *
    obtain ⟨r1, r2, r3, r4⟩ := drawCols_spec (readByte s (effAddr s n)) cx (cy + n) r 8 (by omega)
    unfold drawRow
    have hsplit : ∀ f : Nat → Nat → Prop, (∃ row col, row < n + 1 ∧ f row col) ↔
        (∃ row col, row < n ∧ f row col) ∨ ∃ col, f n col := by
      intro f
      constructor
      · rintro ⟨a, c, ha, hf⟩
        by_cases h : a = n
        · exact .inr ⟨c, h ▸ hf⟩
        · exact .inl ⟨a, c, by omega, hf⟩
      · rintro (⟨a, c, ha, hf⟩ | ⟨c, hf⟩)
        · exact ⟨a, c, by omega, hf⟩
        · exact ⟨n, c, by omega, hf⟩
    refine ⟨fun p q => ?_, ?_, ?_, ih4.trans r4⟩
    · rw [r1, ih1]
      by_cases hq : rowOf cy q = n
      · have hq' : q % 32 = (cy + n) % 32 := (rowOf_eq (by omega)).1 hq
        simp [hq, hq']
      · have hq' : ¬ q % 32 = (cy + n) % 32 := fun e => hq ((rowOf_eq (by omega)).2 e)
        have : decide (rowOf cy q < n + 1) = decide (rowOf cy q < n) := by
          by_cases h : rowOf cy q < n
          · simp [h, Nat.lt_succ_of_lt h]
          · simp [h]
            omega
        rw [this]
        simp [hq']
    · rw [r2, ih2, hsplit]
      have hfresh : ∀ col, fbGet r.1 (cx + col) (cy + n) = fbGet s (cx + col) (cy + n) := by
        intro col
        rw [ih1]
        have : rowOf cy (cy + n) = n := (rowOf_eq (by omega)).2 rfl
        simp [this]
      simp only [hfresh]
    · rw [r3, ih3, hsplit, or_assoc]

end Sys2Proof.Machine
end

