-- ==== Sys2Proof/Laws/Frame.lean ====
section
/-! SUPPORT. Laws of frames: a frame is shown part by part, frames compose and widen, and the frame of each shared operation. -/

namespace Sys2Proof.Machine

variable {W W' : Part → Prop} {s t u : State}

/-- A frame, part by part: each part may be written or reads as before. -/
theorem onlyWrites_intro
    (hv : ∀ x, W (.v x) ∨ getV t x = getV s x) (hi : W .i ∨ t.i = s.i) (hpc : W .pc ∨ t.pc = s.pc)
    (hsp : W .sp ∨ t.sp = s.sp) (hstack : ∀ j : Fin 16, W (.stack j) ∨ t.stack[j.val] = s.stack[j.val])
    (hdt : W .dt ∨ t.dt = s.dt) (hst : W .st ∨ t.st = s.st)
    (hpressed : ∀ k, W (.pressed k) ∨ keyPressed t k = keyPressed s k)
    (hlatch : W .latch ∨ t.latch = s.latch) (hkeyWait : W .keyWait ∨ t.keyWait = s.keyWait)
    (hpixel : ∀ x y, W (.pixel x y) ∨ fbGet t x.val y.val = fbGet s x.val y.val)
    (hdirty : W .dirty ∨ t.dirty = s.dirty) (hbyte : ∀ a, W (.byte a) ∨ readByte t a = readByte s a)
    (hfault : W .fault ∨ t.fault = s.fault) (hrng : W .rngCount ∨ t.rngCount = s.rngCount) :
    OnlyWrites W s t := by
  intro p hp
  cases p with
  | v x => exact (hv x).resolve_left hp
  | i => exact hi.resolve_left hp
  | pc => exact hpc.resolve_left hp
  | sp => exact hsp.resolve_left hp
  | stack j => exact (hstack j).resolve_left hp
  | dt => exact hdt.resolve_left hp
  | st => exact hst.resolve_left hp
  | pressed k => exact (hpressed k).resolve_left hp
  | latch => exact hlatch.resolve_left hp
  | keyWait => exact hkeyWait.resolve_left hp
  | pixel x y => exact (hpixel x y).resolve_left hp
  | dirty => exact hdirty.resolve_left hp
  | byte a => exact (hbyte a).resolve_left hp
  | fault => exact hfault.resolve_left hp
  | rngCount => exact hrng.resolve_left hp

theorem kept_trans {p : Part} (h : Kept p s t) (k : Kept p t u) : Kept p s u := by
  cases p <;> exact Eq.trans k h

theorem onlyWrites_refl (s : State) : OnlyWrites W s s := by
  intro p _
  cases p <;> exact rfl

/-- Frames compose. -/
theorem onlyWrites_trans (h : OnlyWrites W s t) (k : OnlyWrites W t u) : OnlyWrites W s u :=
  fun p hp => kept_trans (h p hp) (k p hp)

/-- A frame may be widened. -/
theorem onlyWrites_mono (hw : ∀ p, W p → W' p) (h : OnlyWrites W s t) : OnlyWrites W' s t :=
  fun p hp => h p (fun w => hp (hw p w))

theorem onlyWrites_setPc (a : Word) (s : State) : OnlyWrites (· = .pc) s (setPc a s) := by
  apply onlyWrites_intro <;> simp

theorem onlyWrites_next (s : State) : OnlyWrites (· = .pc) s (next s) := onlyWrites_setPc _ s

theorem onlyWrites_skipIf (c : Bool) (s : State) : OnlyWrites (· = .pc) s (skipIf c s) := by
  apply onlyWrites_intro <;> simp

theorem onlyWrites_setV (x : RegIdx) (b : Byte) (s : State) : OnlyWrites (· = .v x) s (setV x b s) := by
  apply onlyWrites_intro <;> simp [getV_setV]
  intro r
  by_cases h : r = x <;> simp [h]

theorem onlyWrites_setResultAndFlag (x : RegIdx) (a b : Byte) (s : State) :
    OnlyWrites (fun p => p = .v x ∨ p = .v regF) s (setResultAndFlag x a b s) :=
  onlyWrites_trans (onlyWrites_mono (fun _ => .inl) (onlyWrites_setV x a s))
    (onlyWrites_mono (fun _ => .inr) (onlyWrites_setV regF b _))

theorem onlyWrites_raiseFault (k : Fault) (w : Option Word) (a : Option Nat) (s : State) :
    OnlyWrites (· = .fault) s (raiseFault k w a s) := by
  apply onlyWrites_intro <;> simp

theorem onlyWrites_timerTick (s : State) : OnlyWrites (fun p => p = .dt ∨ p = .st) s (timerTick s) := by
  apply onlyWrites_intro <;> simp

/-- Storing bytes at I writes those bytes only. -/
theorem onlyWrites_storeBytes (s : State) (bs : List Byte) (hr : s.i.toNat + bs.length ≤ 4096) :
    OnlyWrites (AtIndex s bs.length) s (storeBytes (effAddr s 0) bs s) := by
  have hread := readByte_storeBytes s (effAddr s 0) bs (by simpa [effAddr] using hr)
  apply onlyWrites_intro <;> simp [getV, keyPressed, fbGet, readByte]
  intro a
  by_cases h : effAddr s 0 ≤ a ∧ a - effAddr s 0 < bs.length
  · refine .inl ⟨a - effAddr s 0, h.2, ?_⟩
    simp only [effAddr] at *
    congr 1
    omega
  · exact .inr ((hread a).trans (dif_neg h))

/-- Drawing writes pixels and the dirty flag only. -/
theorem onlyWrites_drawnFrom (h : DrawnFrom s t) :
    OnlyWrites (fun p => (∃ x y, p = .pixel x y) ∨ p = .dirty) s t := by
  apply onlyWrites_intro <;> simp [getV, keyPressed, readByte, h.v_eq, h.i_eq, h.pc_eq, h.sp_eq, h.stack_eq, h.dt_eq,
    h.st_eq, h.pressed_eq, h.latch_eq, h.keyWait_eq, h.mem_eq, h.fault_eq, h.rngCount_eq]

end Sys2Proof.Machine
end

