-- ==== Sys2Proof/Laws/PerInstr.lean ====
section
/-! SUPPORT. Per-instruction laws of the encoding. Family `TableBits`: the encoder puts the fixed bits of every instruction where
spec/opcode_table.json has them, mask and match copied from the table row by row. -/

namespace Sys2Proof.Laws.TableBits

/-- "mask" of the instruction's row in spec/opcode_table.json. -/
def mask : Instr → Word
  | .sys _ => 0xF000
  | .cls => 0xFFFF
  | .ret => 0xFFFF
  | .jp _ => 0xF000
  | .call _ => 0xF000
  | .seImm _ _ => 0xF000
  | .sneImm _ _ => 0xF000
  | .seReg _ _ => 0xF00F
  | .ldImm _ _ => 0xF000
  | .addImm _ _ => 0xF000
  | .ldReg _ _ => 0xF00F
  | .orReg _ _ => 0xF00F
  | .andReg _ _ => 0xF00F
  | .xorReg _ _ => 0xF00F
  | .addReg _ _ => 0xF00F
  | .subReg _ _ => 0xF00F
  | .shr _ _ => 0xF00F
  | .subnReg _ _ => 0xF00F
  | .shl _ _ => 0xF00F
  | .sneReg _ _ => 0xF00F
  | .ldI _ => 0xF000
  | .jpV0 _ => 0xF000
  | .rnd _ _ => 0xF000
  | .drw _ _ _ => 0xF000
  | .skp _ => 0xF0FF
  | .sknp _ => 0xF0FF
  | .ldVxDt _ => 0xF0FF
  | .ldVxK _ => 0xF0FF
  | .ldDtVx _ => 0xF0FF
  | .ldStVx _ => 0xF0FF
  | .addI _ => 0xF0FF
  | .ldF _ => 0xF0FF
  | .ldB _ => 0xF0FF
  | .storeRegs _ => 0xF0FF
  | .loadRegs _ => 0xF0FF

/-- "match" of the instruction's row in spec/opcode_table.json. -/
def pattern : Instr → Word
  | .sys _ => 0x0000
  | .cls => 0x00E0
  | .ret => 0x00EE
  | .jp _ => 0x1000
  | .call _ => 0x2000
  | .seImm _ _ => 0x3000
  | .sneImm _ _ => 0x4000
  | .seReg _ _ => 0x5000
  | .ldImm _ _ => 0x6000
  | .addImm _ _ => 0x7000
  | .ldReg _ _ => 0x8000
  | .orReg _ _ => 0x8001
  | .andReg _ _ => 0x8002
  | .xorReg _ _ => 0x8003
  | .addReg _ _ => 0x8004
  | .subReg _ _ => 0x8005
  | .shr _ _ => 0x8006
  | .subnReg _ _ => 0x8007
  | .shl _ _ => 0x800E
  | .sneReg _ _ => 0x9000
  | .ldI _ => 0xA000
  | .jpV0 _ => 0xB000
  | .rnd _ _ => 0xC000
  | .drw _ _ _ => 0xD000
  | .skp _ => 0xE09E
  | .sknp _ => 0xE0A1
  | .ldVxDt _ => 0xF007
  | .ldVxK _ => 0xF00A
  | .ldDtVx _ => 0xF015
  | .ldStVx _ => 0xF018
  | .addI _ => 0xF01E
  | .ldF _ => 0xF029
  | .ldB _ => 0xF033
  | .storeRegs _ => 0xF055
  | .loadRegs _ => 0xF065

/-- The encoder's fixed bits are the table's. -/
def Statement (i : Instr) : Prop := encode i &&& mask i = pattern i

theorem maskNnn (a : Nibble) (nnn : Addr12) : ((a ++ nnn : Word) &&& 0xF000#16) = a ++ 0#12 := by
  apply BitVec.eq_of_getLsbD_eq; intro i hi
  interval_cases i <;> simp only [BitVec.getLsbD_and, BitVec.getLsbD_append] <;> simp

theorem maskXkk (a : Nibble) (x : RegIdx) (kk : Byte) : ((a ++ x ++ kk : Word) &&& 0xF000#16) = a ++ 0#12 := by
  apply BitVec.eq_of_getLsbD_eq; intro i hi
  interval_cases i <;> simp only [BitVec.getLsbD_and, BitVec.getLsbD_append] <;> simp

theorem maskX (a : Nibble) (x : RegIdx) (kk : Byte) : ((a ++ x ++ kk : Word) &&& 0xF0FF#16) = a ++ 0#4 ++ kk := by
  apply BitVec.eq_of_getLsbD_eq; intro i hi
  interval_cases i <;> simp only [BitVec.getLsbD_and, BitVec.getLsbD_append] <;> simp

theorem maskXy (a : Nibble) (x y : RegIdx) (n : Nibble) :
    ((a ++ x ++ y ++ n : Word) &&& 0xF00F#16) = a ++ 0#8 ++ n := by
  apply BitVec.eq_of_getLsbD_eq; intro i hi
  interval_cases i <;> simp only [BitVec.getLsbD_and, BitVec.getLsbD_append] <;> simp

theorem maskXyn (a : Nibble) (x y : RegIdx) (n : Nibble) :
    ((a ++ x ++ y ++ n : Word) &&& 0xF000#16) = a ++ 0#12 := by
  apply BitVec.eq_of_getLsbD_eq; intro i hi
  interval_cases i <;> simp only [BitVec.getLsbD_and, BitVec.getLsbD_append] <;> simp

theorem sys (nnn : Addr12) : Statement (.sys nnn) := maskNnn 0x0 nnn
theorem cls : Statement .cls := rfl
theorem ret : Statement .ret := rfl
theorem jp (nnn : Addr12) : Statement (.jp nnn) := maskNnn 0x1 nnn
theorem call (nnn : Addr12) : Statement (.call nnn) := maskNnn 0x2 nnn
theorem seImm (x : RegIdx) (kk : Byte) : Statement (.seImm x kk) := maskXkk 0x3 x kk
theorem sneImm (x : RegIdx) (kk : Byte) : Statement (.sneImm x kk) := maskXkk 0x4 x kk
theorem seReg (x y : RegIdx) : Statement (.seReg x y) := maskXy 0x5 x y 0x0
theorem ldImm (x : RegIdx) (kk : Byte) : Statement (.ldImm x kk) := maskXkk 0x6 x kk
theorem addImm (x : RegIdx) (kk : Byte) : Statement (.addImm x kk) := maskXkk 0x7 x kk
theorem ldReg (x y : RegIdx) : Statement (.ldReg x y) := maskXy 0x8 x y 0x0
theorem orReg (x y : RegIdx) : Statement (.orReg x y) := maskXy 0x8 x y 0x1
theorem andReg (x y : RegIdx) : Statement (.andReg x y) := maskXy 0x8 x y 0x2
theorem xorReg (x y : RegIdx) : Statement (.xorReg x y) := maskXy 0x8 x y 0x3
theorem addReg (x y : RegIdx) : Statement (.addReg x y) := maskXy 0x8 x y 0x4
theorem subReg (x y : RegIdx) : Statement (.subReg x y) := maskXy 0x8 x y 0x5
theorem shr (x y : RegIdx) : Statement (.shr x y) := maskXy 0x8 x y 0x6
theorem subnReg (x y : RegIdx) : Statement (.subnReg x y) := maskXy 0x8 x y 0x7
theorem shl (x y : RegIdx) : Statement (.shl x y) := maskXy 0x8 x y 0xE
theorem sneReg (x y : RegIdx) : Statement (.sneReg x y) := maskXy 0x9 x y 0x0
theorem ldI (nnn : Addr12) : Statement (.ldI nnn) := maskNnn 0xA nnn
theorem jpV0 (nnn : Addr12) : Statement (.jpV0 nnn) := maskNnn 0xB nnn
theorem rnd (x : RegIdx) (kk : Byte) : Statement (.rnd x kk) := maskXkk 0xC x kk
theorem drw (x y : RegIdx) (n : Nibble) : Statement (.drw x y n) := maskXyn 0xD x y n
theorem skp (x : RegIdx) : Statement (.skp x) := maskX 0xE x 0x9E
theorem sknp (x : RegIdx) : Statement (.sknp x) := maskX 0xE x 0xA1
theorem ldVxDt (x : RegIdx) : Statement (.ldVxDt x) := maskX 0xF x 0x07
theorem ldVxK (x : RegIdx) : Statement (.ldVxK x) := maskX 0xF x 0x0A
theorem ldDtVx (x : RegIdx) : Statement (.ldDtVx x) := maskX 0xF x 0x15
theorem ldStVx (x : RegIdx) : Statement (.ldStVx x) := maskX 0xF x 0x18
theorem addI (x : RegIdx) : Statement (.addI x) := maskX 0xF x 0x1E
theorem ldF (x : RegIdx) : Statement (.ldF x) := maskX 0xF x 0x29
theorem ldB (x : RegIdx) : Statement (.ldB x) := maskX 0xF x 0x33
theorem storeRegs (x : RegIdx) : Statement (.storeRegs x) := maskX 0xF x 0x55
theorem loadRegs (x : RegIdx) : Statement (.loadRegs x) := maskX 0xF x 0x65

end Sys2Proof.Laws.TableBits
end

