-- ==== Sys2Proof/Laws/Ports.lean ====
section
/-! SUPPORT. Laws of the host interface: what each host operation can do, once, and the frames of the two ports that write. -/

namespace Sys2Proof.Machine

@[simp] theorem consumeDirty_v (s : State) : (consumeDirty s).2.v = s.v := (rfl)
@[simp] theorem consumeDirty_i (s : State) : (consumeDirty s).2.i = s.i := (rfl)
@[simp] theorem consumeDirty_pc (s : State) : (consumeDirty s).2.pc = s.pc := (rfl)
@[simp] theorem consumeDirty_sp (s : State) : (consumeDirty s).2.sp = s.sp := (rfl)
@[simp] theorem consumeDirty_stack (s : State) : (consumeDirty s).2.stack = s.stack := (rfl)
@[simp] theorem consumeDirty_dt (s : State) : (consumeDirty s).2.dt = s.dt := (rfl)
@[simp] theorem consumeDirty_st (s : State) : (consumeDirty s).2.st = s.st := (rfl)
@[simp] theorem consumeDirty_pressed (s : State) : (consumeDirty s).2.pressed = s.pressed := (rfl)
@[simp] theorem consumeDirty_latch (s : State) : (consumeDirty s).2.latch = s.latch := (rfl)
@[simp] theorem consumeDirty_keyWait (s : State) : (consumeDirty s).2.keyWait = s.keyWait := (rfl)
@[simp] theorem consumeDirty_fb (s : State) : (consumeDirty s).2.fb = s.fb := (rfl)
@[simp] theorem consumeDirty_mem (s : State) : (consumeDirty s).2.mem = s.mem := (rfl)
@[simp] theorem consumeDirty_fault (s : State) : (consumeDirty s).2.fault = s.fault := (rfl)
@[simp] theorem consumeDirty_rngCount (s : State) : (consumeDirty s).2.rngCount = s.rngCount := (rfl)
@[simp] theorem consumeDirty_dirty (s : State) : (consumeDirty s).2.dirty = false := (rfl)

theorem onlyWrites_consumeDirty (s : State) : OnlyWrites (· = .dirty) s (consumeDirty s).2 := by
  apply onlyWrites_intro <;> simp [getV, keyPressed, fbGet, readByte]

/-- A key event that is not refused has an index below 16 and writes the press flag and the latch (60_exceptions R252, R260). -/
theorem keyEvent_cases {k : Nat} {p : Bool} {s t : State} (h : keyEvent k p s = .next t) :
    ∃ hk : k < 16, t = { s with
      pressed := s.pressed.set k p hk
      latch := if !p && s.pressed[k] then some (BitVec.ofNat 4 k) else s.latch } := by
  unfold keyEvent at h
  split at h
  · rename_i hk
    injection h with h
    exact ⟨hk, h.symm⟩
  · cases h

/-- A key event writes its own press flag and the latch only. -/
theorem onlyWrites_keyEvent {k : Nat} {p : Bool} {s t : State} (h : keyEvent k p s = .next t) :
    OnlyWrites (fun q => (∃ j : KeyIdx, j.toNat = k ∧ q = .pressed j) ∨ q = .latch) s t := by
  obtain ⟨hk, rfl⟩ := keyEvent_cases h
  apply onlyWrites_intro <;> simp [getV, keyPressed, fbGet, readByte]
  intro j
  by_cases e : j.toNat = k
  · exact .inl e
  · exact .inr (by rw [Vector.getElem_set_ne _ _ (Ne.symm e)])

/-- Everything a host operation that is not refused can do (60_exceptions R258). -/
theorem hostOp_cases {op : HostOp} {s t : State} (h : hostOp op s = .next t) :
    (∃ image, op = .reset image ∧ t = { (resetImage image) with rngCount := s.rngCount }) ∨
    (op = .step ∧ step s = .next t) ∨
    (∃ k p, op = .keyEvent k p ∧ keyEvent k p s = .next t) ∨
    (op = .timerTick ∧ t = timerTick s) ∨
    (op = .consumeDirty ∧ t = (consumeDirty s).2) ∨
    ((∃ x y, op = .fbRead x y) ∧ t = s) ∨
    (op = .soundValue ∧ t = s) := by
  cases op with
  | reset image => injection h with h; exact .inl ⟨image, rfl, h.symm⟩
  | step => exact .inr (.inl ⟨rfl, h⟩)
  | keyEvent k p => exact .inr (.inr (.inl ⟨k, p, rfl, h⟩))
  | timerTick => injection h with h; exact .inr (.inr (.inr (.inl ⟨rfl, h.symm⟩)))
  | consumeDirty => injection h with h; exact .inr (.inr (.inr (.inr (.inl ⟨rfl, h.symm⟩))))
  | fbRead x y => injection h with h; exact .inr (.inr (.inr (.inr (.inr (.inl ⟨⟨x, y, rfl⟩, h.symm⟩)))))
  | soundValue => injection h with h; exact .inr (.inr (.inr (.inr (.inr (.inr ⟨rfl, h.symm⟩)))))

end Sys2Proof.Machine
end

