-- ==== Sys2Proof/Laws/Sprite.lean ====
section
/-! SUPPORT. Laws of the sprite: the bit that falls on a pixel, by column and row offset, and the two ways to name a sprite bit. -/

namespace Sys2Proof.Machine

/-- The sprite bit on a pixel, in the offsets `drawSprite_spec` speaks of. -/
theorem spriteAt_eq (s : State) (cx cy n : Nat) (px : Fin 64) (py : Fin 32) :
    spriteAt s cx cy n px py =
      (decide (rowOf cy py.val < n) && decide (colOf cx px.val < 8) &&
        spriteBit (readByte s (effAddr s (rowOf cy py.val))) (colOf cx px.val)) := by
  unfold spriteAt rowOf colOf
  rw [Nat.mod_eq_of_lt px.isLt, Nat.mod_eq_of_lt py.isLt]
  simp only [Bool.and_comm (decide (_ < 8))]

/-- Some set sprite bit by row and column falls on a pixel with a property, or some pixel under a set sprite bit has it: the same, for a property of
the grid that wraps as the grid does. -/
theorem exists_spriteBit_iff (s : State) (cx cy n : Nat) (hn : n ≤ 32) (f : Nat → Nat → Prop)
    (hf : ∀ p q p' q', p % 64 = p' % 64 → q % 32 = q' % 32 → f p q → f p' q') :
    (∃ row col, row < n ∧ col < 8 ∧ spriteBit (readByte s (effAddr s row)) col = true ∧ f (cx + col) (cy + row)) ↔
      ∃ (px : Fin 64) (py : Fin 32), spriteAt s cx cy n px py = true ∧ f px.val py.val := by
  constructor
  · rintro ⟨r, c, hr, hc, hs, h⟩
    have e1 : rowOf cy ((cy + r) % 32) = r := (rowOf_eq (by omega)).2 (by omega)
    have e2 : colOf cx ((cx + c) % 64) = c := (colOf_eq (by omega)).2 (by omega)
    refine ⟨⟨(cx + c) % 64, by omega⟩, ⟨(cy + r) % 32, by omega⟩, ?_, hf _ _ _ _ (by simp) (by simp) h⟩
    rw [spriteAt_eq]
    simp [e1, e2, hr, hc, hs]
  · rintro ⟨px, py, h, h2⟩
    rw [spriteAt_eq] at h
    simp only [Bool.and_eq_true, decide_eq_true_eq] at h
    refine ⟨_, _, h.1.1, h.1.2, h.2, hf _ _ _ _ ?_ ?_ h2⟩
    · exact (colOf_eq (by omega)).1 rfl
    · exact (rowOf_eq (by omega)).1 rfl

end Sys2Proof.Machine
end

