-- ==== Sys2Proof/Tests/Slice0.lean ====
section
/-! SUPPORT. Tests: an ill-formed term for each check of WellFormed; every constructor's decoding from a word written out from the
encoding of 30_encoding R73; one-step vectors of spec/95_test_vectors.md, named by their ids; and, for every statement with hypotheses,
a state and operands that meet them. Expected values are the spec's. -/

namespace Sys2Proof.Tests

open Sys2Proof Sys2Proof.Machine

/-! ### Small states -/

/-- The reset state with some registers set. -/
def regs (vs : List (RegIdx × Byte)) : State := vs.foldl (fun s p => setV p.1 p.2 s) State.reset

/-- A state with an address register and some bytes at it. -/
def withData (i : Word) (bs : List Byte) (s : State) : State := storeBytes i.toNat bs (setI i s)

/-- A state with one pixel set. -/
def withPixel (x y : Nat) (s : State) : State := fbPut x y true s

/-- A state with its stack pointer at `n`. -/
def withSp (n : Fin 17) (s : State) : State := { s with sp := n }

/-- A state with a stack entry. -/
def withEntry (j : Fin 16) (a : Word) (s : State) : State := { s with stack := s.stack.set j.val a }

/-- A state with a key pressed. -/
def withKey (k : Fin 16) (s : State) : State := { s with pressed := s.pressed.set k.val true }

/-- A state with a released key latched. -/
def withLatch (k : KeyIdx) (s : State) : State := { s with latch := some k }

/-- The word placed at pc. -/
def at_ (w : Nat) (s : State) : State := s.withFetchWord 16 w

/-- The state a step leaves. -/
def stepped (s : State) : State :=
  match step s with
  | .next t => t
  | .fault _ => s
  | .refused _ => s

/-- The state after one step that runs the word. -/
def run (w : Nat) (s : State) : State := stepped (at_ w s)

/-- The state an instruction leaves. -/
def executed (i : Instr) (s : State) : State :=
  match exec i s with
  | .next t => t
  | .fault _ => s
  | .refused _ => s

/-! ### WellFormed -/

-- R74: SYS with nibble1 = 0 is no instruction; with nibble1 = 1 it is one.
theorem test_wellFormed_refuses_sys_with_zero_nibble :
    (Instr.sys 0x0E0).wellFormed = false ∧ (Instr.sys 0x0FF).wellFormed = false ∧ (Instr.sys 0x100).wellFormed = true := by
  decide

/-! ### Decoding: words written out from the encodings of R73 -/

theorem test_decode_flow :
    decodeWord 0x0ABC = .instr (.sys 0xABC) ∧ decodeWord 0x00E0 = .instr .cls ∧ decodeWord 0x00EE = .instr .ret ∧
    decodeWord 0x1ABC = .instr (.jp 0xABC) ∧ decodeWord 0x2ABC = .instr (.call 0xABC) ∧
    decodeWord 0x31A5 = .instr (.seImm 1 0xA5) ∧ decodeWord 0x41A5 = .instr (.sneImm 1 0xA5) ∧
    decodeWord 0x5120 = .instr (.seReg 1 2) ∧ decodeWord 0x9120 = .instr (.sneReg 1 2) ∧
    decodeWord 0xB123 = .instr (.jpV0 0x123) := by decide

theorem test_decode_alu :
    decodeWord 0x61A5 = .instr (.ldImm 1 0xA5) ∧ decodeWord 0x71A5 = .instr (.addImm 1 0xA5) ∧
    decodeWord 0x8120 = .instr (.ldReg 1 2) ∧ decodeWord 0x8121 = .instr (.orReg 1 2) ∧
    decodeWord 0x8122 = .instr (.andReg 1 2) ∧ decodeWord 0x8123 = .instr (.xorReg 1 2) ∧
    decodeWord 0x8124 = .instr (.addReg 1 2) ∧ decodeWord 0x8125 = .instr (.subReg 1 2) ∧
    decodeWord 0x8126 = .instr (.shr 1 2) ∧ decodeWord 0x8127 = .instr (.subnReg 1 2) ∧
    decodeWord 0x812E = .instr (.shl 1 2) ∧ decodeWord 0xC1A5 = .instr (.rnd 1 0xA5) := by decide

theorem test_decode_display_and_memory :
    decodeWord 0xA123 = .instr (.ldI 0x123) ∧ decodeWord 0xD123 = .instr (.drw 1 2 3) ∧
    decodeWord 0xF11E = .instr (.addI 1) ∧ decodeWord 0xF129 = .instr (.ldF 1) ∧ decodeWord 0xF133 = .instr (.ldB 1) ∧
    decodeWord 0xF155 = .instr (.storeRegs 1) ∧ decodeWord 0xF165 = .instr (.loadRegs 1) := by decide

theorem test_decode_keys_and_timers :
    decodeWord 0xE19E = .instr (.skp 1) ∧ decodeWord 0xE1A1 = .instr (.sknp 1) ∧ decodeWord 0xF107 = .instr (.ldVxDt 1) ∧
    decodeWord 0xF10A = .instr (.ldVxK 1) ∧ decodeWord 0xF115 = .instr (.ldDtVx 1) ∧
    decodeWord 0xF118 = .instr (.ldStVx 1) := by decide

-- T9: illegal words, one or more a group; 0x8009 to 0x800D by R76.
theorem test_decode_illegal :
    decodeWord 0x0000 = .illegal (.group0 0x0000) ∧ decodeWord 0x00E1 = .illegal (.group0 0x00E1) ∧
    decodeWord 0x00FF = .illegal (.group0 0x00FF) ∧ decodeWord 0x5121 = .illegal (.group5 0x5121) ∧
    decodeWord 0x8008 = .illegal (.group8 0x8008) ∧ decodeWord 0x800D = .illegal (.group8 0x800D) ∧
    decodeWord 0x800F = .illegal (.group8 0x800F) ∧ decodeWord 0x912F = .illegal (.group9 0x912F) ∧
    decodeWord 0xE09F = .illegal (.groupE 0xE09F) ∧ decodeWord 0xFFFF = .illegal (.groupF 0xFFFF) ∧
    decodeBytes [0x12] = (.illegal .truncated, [0x12]) := by decide

/-! ### The step cycle -/

-- T1: a halted core changes nothing and returns its record.
theorem test_T1 : step (raiseFault .decodeError (some 0x0000) none (at_ 0x6001 State.reset)) =
    .next (raiseFault .decodeError (some 0x0000) none (at_ 0x6001 State.reset)) := by rfl

-- T3: the key-wait resolution.
theorem test_T3 : let t := stepped (setKeyWait (some 3) (withLatch 0xA (setDt 5 (at_ 0x6001 State.reset))))
    getV t 3 = 0x0A ∧ t.latch = none ∧ t.keyWait = none ∧ t.dt = 5 ∧ t.pc = 0x200 := by decide

-- T4: the stall ticks.
theorem test_T4 : let t := stepped (setDt 2 (setSt 1 (setPc 0x1000 State.reset)))
    t.dt = 1 ∧ t.st = 0 ∧ t.pc = 0x1000 ∧ t.fault = none := by decide

-- T5: the fetch fault keeps its tick.
theorem test_T5 : let t := stepped (setDt 2 (setPc 0xFFF State.reset))
    t.dt = 1 ∧ t.fault = some ⟨.fetchOutOfBounds, 0xFFF, none, none⟩ := by decide

-- T6: the last word of memory is fetched.
theorem test_T6 : (run 0x1200 (setPc 0xFFE State.reset)).pc = 0x200 := by decide

-- T7: an odd pc.
theorem test_T7 : let t := stepped (setPc 0x201 (storeBytes 0x200 [0x00, 0x60, 0x05, 0x00] State.reset))
    getV t 0 = 0x05 ∧ t.pc = 0x203 := by decide

-- T8: an illegal word.
theorem test_T8 : let t := run 0x0000 (setDt 3 State.reset)
    t.dt = 2 ∧ t.fault = some ⟨.decodeError, 0x200, some 0x0000, none⟩ := by decide

/-! ### Control flow -/

-- F1
theorem test_F1 : (run 0x0123 State.reset).pc = 0x202 := by decide
-- F4
theorem test_F4 : let t := run 0x00EE (withEntry 15 0x456 (withSp 16 State.reset)); t.pc = 0x456 ∧ t.sp = 15 := by decide
-- F3
theorem test_F3 : (run 0x00EE State.reset).fault = some ⟨.stackUnderflow, 0x200, some 0x00EE, none⟩ := by decide
-- F5
theorem test_F5 : (run 0x1234 State.reset).pc = 0x234 := by decide
-- F8
theorem test_F8 : let t := run 0x2300 (withSp 15 State.reset); t.pc = 0x300 ∧ t.sp = 16 ∧ t.stack[15] = 0x202 := by decide
-- F9
theorem test_F9 : (run 0x2300 (withSp 16 State.reset)).fault = some ⟨.stackOverflow, 0x200, some 0x2300, none⟩ := by decide
-- F11, F12
theorem test_F11_F12 : (run 0x3210 (regs [(2, 0x10)])).pc = 0x204 ∧ (run 0x3210 (regs [(2, 0x11)])).pc = 0x202 := by decide
-- F14, F15
theorem test_F14_F15 : (run 0x4210 (regs [(2, 0x10)])).pc = 0x202 ∧ (run 0x4210 (regs [(2, 0x11)])).pc = 0x204 := by decide
-- F16, F17
theorem test_F16_F17 : (run 0x5120 (regs [(1, 7), (2, 7)])).pc = 0x204 ∧ (run 0x5120 (regs [(1, 7), (2, 8)])).pc = 0x202 := by
  decide
-- F19, F20
theorem test_F19_F20 : (run 0x9120 (regs [(1, 7), (2, 8)])).pc = 0x204 ∧ (run 0x9110 (regs [(1, 9)])).pc = 0x202 := by decide
-- F22, F23
theorem test_F22_F23 : (run 0xBFFF (regs [(0, 0xFF)])).pc = 0x10FE ∧ (run 0xB500 (regs [(0, 1), (5, 9)])).pc = 0x501 := by decide

/-! ### Display -/

-- D1
theorem test_D1 : let t := run 0x00E0 (withPixel 0 0 (withPixel 63 31 State.reset))
    fbGet t 0 0 = false ∧ fbGet t 63 31 = false ∧ t.dirty = true ∧ t.pc = 0x202 := by decide
-- D5: columns wrap.
theorem test_D5 : let t := run 0xD011 (withData 0x300 [0xFF] (regs [(0, 62)]))
    fbGet t 62 0 = true ∧ fbGet t 63 0 = true ∧ fbGet t 0 0 = true ∧ fbGet t 5 0 = true ∧ fbGet t 6 0 = false ∧
    fbGet t 61 0 = false ∧ getV t 0xF = 0 ∧ t.dirty = true := by decide
-- D8: a collision.
theorem test_D8 : let t := run 0xD011 (withPixel 1 0 (withData 0x300 [0xC0] State.reset))
    fbGet t 0 0 = true ∧ fbGet t 1 0 = false ∧ getV t 0xF = 1 ∧ t.dirty = true := by decide

/-! ### Arithmetic and logic -/

-- A1
theorem test_A1 : getV (run 0x6A42 State.reset) 0xA = 0x42 := by decide
-- A2
theorem test_A2 : let t := run 0x7302 (regs [(3, 0xFF), (0xF, 1)]); getV t 3 = 0x01 ∧ getV t 0xF = 1 := by decide
-- A4
theorem test_A4 : getV (run 0x8010 (regs [(1, 0x42)])) 0 = 0x42 := by decide
-- A6
theorem test_A6 : let t := run 0x8011 (regs [(0, 0xF0), (1, 0x0F), (0xF, 1)]); getV t 0 = 0xFF ∧ getV t 0xF = 1 := by decide
-- A7
theorem test_A7 : getV (run 0x8012 (regs [(0, 0xF0), (1, 0x3C)])) 0 = 0x30 := by decide
-- A8
theorem test_A8 : getV (run 0x8013 (regs [(0, 0xF0), (1, 0x3C)])) 0 = 0xCC := by decide
-- A10
theorem test_A10 : let t := run 0x8014 (regs [(0, 0xFF), (1, 0x01)]); getV t 0 = 0 ∧ getV t 0xF = 1 := by decide
-- A14: x = F, the flag stays.
theorem test_A14 : getV (run 0x8F14 (regs [(0xF, 0xFF), (1, 0x01)])) 0xF = 1 := by decide
-- A16
theorem test_A16 : let t := run 0x8015 (regs [(0, 3), (1, 5), (0xF, 1)]); getV t 0 = 0xFE ∧ getV t 0xF = 0 := by decide
-- A17: equal operands clear the flag.
theorem test_A17 : let t := run 0x8015 (regs [(0, 5), (1, 5), (0xF, 1)]); getV t 0 = 0 ∧ getV t 0xF = 0 := by decide
-- A21: y is ignored.
theorem test_A21 : let t := run 0x8416 (regs [(4, 0x01), (1, 0xFF)]); getV t 4 = 0 ∧ getV t 0xF = 1 ∧ getV t 1 = 0xFF := by
  decide
-- A24
theorem test_A24 : let t := run 0x8017 (regs [(0, 3), (1, 5)]); getV t 0 = 2 ∧ getV t 0xF = 1 := by decide
-- A28
theorem test_A28 : let t := run 0x840E (regs [(4, 0x81)]); getV t 4 = 0x02 ∧ getV t 0xF = 1 := by decide
-- A32: no bit of the draw survives the mask 0; the draw is counted.
theorem test_A32 : let t := run 0xC500 State.reset; getV t 5 = 0 ∧ t.rngCount = 1 ∧ t.pc = 0x202 := by
  refine ⟨?_, rfl, rfl⟩
  exact BitVec.and_zero

/-! ### Index register and memory -/

-- M1
theorem test_M1 : (run 0xA123 State.reset).i = 0x123 := by decide
-- M3
theorem test_M3 : let t := run 0xF21E (setI 0xFFFF (regs [(2, 1), (0xF, 1)])); t.i = 0 ∧ getV t 0xF = 1 := by decide
-- M8
theorem test_M8 : (run 0xF229 (regs [(2, 0xFF)])).i = 0x4FB := by decide
-- M9
theorem test_M9 : let t := run 0xF033 (setI 0x300 (regs [(0, 0xFE)]))
    readByte t 0x300 = 2 ∧ readByte t 0x301 = 5 ∧ readByte t 0x302 = 4 ∧ readByte t 0x303 = 0 := by decide
-- M13
theorem test_M13 : let t := run 0xF033 (setI 0xFFE (regs [(0, 0xFF)]))
    t.fault = some ⟨.memoryOutOfBounds, 0x200, some 0xF033, some 0x1000⟩ ∧ readByte t 0xFFE = 0 := by decide
-- M18
theorem test_M18 : let t := run 0xF155 (setI 0x202 (regs [(0, 0x12), (1, 0x34)]))
    readByte t 0x202 = 0x12 ∧ readByte t 0x203 = 0x34 ∧ t.i = 0x202 ∧ fetchWord t = 0x1234 := by decide
-- M19
theorem test_M19 : let t := run 0xF265 (withData 0x300 [2, 5, 4] (regs [(3, 9)]))
    getV t 0 = 2 ∧ getV t 1 = 5 ∧ getV t 2 = 4 ∧ getV t 3 = 9 ∧ t.i = 0x300 := by decide

/-! ### Keypad and timers -/

-- K1, K2
theorem test_K1_K2 : (run 0xE59E (withKey 0xA (regs [(5, 0x0A)]))).pc = 0x204 ∧ (run 0xE59E (regs [(5, 0x0A)])).pc = 0x202 := by
  decide
-- K5
theorem test_K5 : (run 0xE59E (regs [(5, 0x10)])).fault = some ⟨.keyIndexOutOfRange, 0x200, some 0xE59E, none⟩ := by decide
-- K3, K4
theorem test_K3_K4 : (run 0xE5A1 (withKey 0xA (regs [(5, 0x0A)]))).pc = 0x202 ∧ (run 0xE5A1 (regs [(5, 0x0A)])).pc = 0x204 := by
  decide
-- K8
theorem test_K8 : let t := run 0xF107 (setDt 3 State.reset); getV t 1 = 2 ∧ t.dt = 2 := by decide
-- K12
theorem test_K12 : let t := run 0xF30A (withLatch 4 State.reset); t.pc = 0x202 ∧ t.keyWait = some 3 ∧ t.latch = some 4 := by
  decide
-- K15
theorem test_K15 : (run 0xF015 (setDt 7 (regs [(0, 3)]))).dt = 3 := by decide
-- K17
theorem test_K17 : (run 0xF118 (regs [(1, 0x10)])).st = 0x10 := by decide

/-! ### The host interface -/

-- H2, H3: a release transition latches, another release does not.
theorem test_H2_H3 :
    (match keyEvent 5 false (withKey 5 State.reset) with | .next t => t.latch | _ => none) = some 5 ∧
    (match keyEvent 6 false (withLatch 9 State.reset) with | .next t => t.latch | _ => none) = some 9 := by decide
-- H10
theorem test_H10 : keyEvent 16 true State.reset = .refused (.keyEventIndex 16) := by rfl

/-! ### Witnesses: states and operands that meet the hypotheses of the statements, at the boundaries of their ranges -/

theorem fetches_at (w : Nat) (s : State) (h : s.pc.toNat ≤ 0xFFE) : Fetches (at_ w s) := by
  refine ⟨rfl, rfl, ?_⟩
  simp only [at_, State.withFetchWord, placeWord, if_pos h]
  exact h

-- WellFormedInstructionsAndLegalWordsCorrespond
theorem witness_wellFormed_and_legal :
    (Instr.sys 0xFFF).wellFormed = true ∧ (Instr.drw 0xF 0xF 0xF).wellFormed = true ∧ decodeWord 0x0100 = .instr (.sys 0x100) := by
  decide

-- GroupsWithoutSubOpcodeAreWhollyLegal
theorem witness_group_without_sub_opcode : fieldOp 0x1000 ∈ [0x1, 0x2, 0x3, 0x4, 0x6, 0x7, 0xA, 0xB, 0xC, 0xD] ∧
    fieldOp 0xDFFF ∈ [0x1, 0x2, 0x3, 0x4, 0x6, 0x7, 0xA, 0xB, 0xC, 0xD] := by decide

-- ResetLeavesEveryItemAtItsResetValue
theorem witness_reset_ranges : (79 < 80) ∧ (80 ≤ 80 ∧ 80 < 0x200) ∧ (80 ≤ 0x1FF ∧ 0x1FF < 0x200) ∧
    (0x200 ≤ 0x200 ∧ 0x200 < 4096) ∧ (0x200 ≤ 0xFFF ∧ 0xFFF < 4096) := by decide

-- OversizeImageIsCutAndEmptyImageFaults
theorem witness_oversize_image : (List.replicate 3584 0xAA#8).length = 3584 := List.length_replicate

-- EveryStepKeepsTheInvariant: a state with a listed byte, the highest pc, a full stack and a fault record.
theorem witness_invariant :
    let s := raiseFault .memoryOutOfBounds (some 0xD011) (some 0xFFFF)
      (withEntry 15 0x1000 (withSp 16 (setPc 0xFFE (storeBytes 0xFFF [0x80] State.reset))))
    Inv s ∧ step s = .next s := by
  refine ⟨⟨by decide, by decide, by decide, ?_⟩, rfl⟩
  intro r h
  injection h with h
  subst h
  exact ⟨⟨by decide, fun h => absurd rfl h, fun _ => ⟨0xFFFF, rfl, by decide, by decide⟩, by decide⟩, rfl⟩

theorem witness_invariant_at_highest_pc : Inv (setPc 0x10FE State.reset) ∧
    step (setPc 0x10FE State.reset) = .next (timerTick (setPc 0x10FE State.reset)) :=
  ⟨⟨by decide, by decide, by decide, by intro r h; cases h⟩, rfl⟩

-- EveryHostOperationKeepsTheInvariant
theorem witness_host_operation_from_invariant : Inv (setPc 0x1000 State.reset) ∧
    hostOp .timerTick (setPc 0x1000 State.reset) = .next (timerTick (setPc 0x1000 State.reset)) :=
  ⟨⟨by decide, by decide, by decide, by intro r h; cases h⟩, rfl⟩

theorem witness_reachable : Reachable (stepped (resetImage [0x12, 0x00])) :=
  .op .step (.reset [0x12, 0x00]) rfl

-- EveryInstructionLeavesPcAsItsRuleSays, EveryInstructionFaultIsPrecise, EveryInstructionWritesOnlyItsTableRow, IllegalWordRaisesDecodeError
theorem witness_instruction_executes : Fetches (at_ 0x1234 State.reset) ∧
    decodeWord (fetchWord (at_ 0x1234 State.reset)) = .instr (.jp 0x234) ∧ State.reset.fault = none ∧
    exec (.jp 0x234) State.reset = .next (setPc 0x234 State.reset) ∧ (setPc 0x234 State.reset).fault = none :=
  ⟨fetches_at _ _ (by decide), by decide, rfl, rfl, rfl⟩

theorem witness_instruction_faults : State.reset.fault = none ∧
    exec .ret State.reset = .next (raiseFault .stackUnderflow (some 0x00EE) none State.reset) ∧
    (raiseFault .stackUnderflow (some 0x00EE) none State.reset).fault ≠ none := ⟨rfl, rfl, by decide⟩

theorem witness_illegal_word : Fetches (at_ 0x5121 State.reset) ∧
    decodeWord (fetchWord (at_ 0x5121 State.reset)) = .illegal (.group5 0x5121) := ⟨fetches_at _ _ (by decide), by decide⟩

-- NoStepReadsSoundTimerOrDirtyFlag
theorem witness_same_but_sound_and_dirty :
    SameButSoundAndDirty (at_ 0x00E0 State.reset) (setSt 9 { (at_ 0x00E0 State.reset) with dirty := true }) ∧
    step (at_ 0x00E0 State.reset) = .next (run 0x00E0 State.reset) := ⟨rfl, rfl⟩

-- KeyWaitAndLatchHaveTheirNamedWritersOnly: in a step, then by a release, then by reset
theorem witness_key_wait_entered : step (at_ 0xF30A State.reset) = .next (run 0xF30A State.reset) ∧
    (run 0xF30A State.reset).keyWait ≠ (at_ 0xF30A State.reset).keyWait := ⟨rfl, by decide⟩

theorem witness_key_wait_left :
    let s := setKeyWait (some 0xF) (withLatch 0xF State.reset)
    step s = .next (stepped s) ∧ (stepped s).keyWait ≠ s.keyWait ∧ (stepped s).latch ≠ s.latch := ⟨rfl, by decide, by decide⟩

theorem witness_latch_by_release : HostOp.keyEvent 0xF false ≠ .step ∧
    ∃ t, hostOp (.keyEvent 0xF false) (withKey 0xF State.reset) = .next t ∧ t.latch ≠ (withKey 0xF State.reset).latch :=
  ⟨by simp, _, rfl, by decide⟩

theorem witness_key_wait_and_latch_by_reset : HostOp.reset [] ≠ .step ∧
    ∃ t, hostOp (.reset []) (setKeyWait (some 0) (withLatch 0 State.reset)) = .next t ∧
      t.keyWait ≠ (setKeyWait (some 0) (withLatch 0 State.reset)).keyWait ∧
      t.latch ≠ (setKeyWait (some 0) (withLatch 0 State.reset)).latch := ⟨by simp, _, rfl, by decide, by decide⟩

-- OnlyConsumeDirtyAndResetClearTheDirtyFlag
theorem witness_dirty_before_a_key_event :
    (∀ image, HostOp.keyEvent 0 true ≠ .reset image) ∧ HostOp.keyEvent 0 true ≠ .consumeDirty ∧
    ∃ t, hostOp (.keyEvent 0 true) { State.reset with dirty := true } = .next t ∧ { State.reset with dirty := true }.dirty = true :=
  ⟨by simp, by simp, _, rfl, rfl⟩

-- ConsumeDirtyReturnsAndClearsTheDirtyFlag
theorem witness_dirty_before_a_step :
    let s := at_ 0x6001 { State.reset with dirty := true }
    step s = .next (stepped s) ∧ s.dirty = true := ⟨rfl, rfl⟩

-- OnlyResetLeavesTheHaltedStateAndTheStall
theorem witness_halted_and_stalled_runs :
    (∃ t, hostRun [.keyEvent 15 true, .step, .timerTick] (raiseFault .stackOverflow none none State.reset) = .next t ∧
      runClass (raiseFault .stackOverflow none none State.reset) = .halted) ∧
    (∃ t, hostRun [.step, .consumeDirty, .step] (setPc 0x1000 State.reset) = .next t ∧
      runClass (setPc 0x1000 State.reset) = .stalled) := ⟨⟨_, rfl, rfl⟩, ⟨_, rfl, rfl⟩⟩

-- StepRunsTheDecodedInstruction, at the last address that fetches
theorem witness_step_runs : let s := at_ 0x1200 (setPc 0xFFE State.reset)
    Fetches s ∧ (Instr.jp 0x200).wellFormed = true ∧
    decodeBytes [readByte s s.pc.toNat, readByte s (s.pc.toNat + 1)] = (.instr (.jp 0x200), []) :=
  ⟨fetches_at _ _ (by decide), rfl, by decide⟩

-- PlacedWordIsTheNextInstructionRun
theorem witness_table_word : decodeTableWord 16 0xFF65 = some (.loadRegs 0xF) := by decide

-- FetchIsBigEndian
theorem witness_fetch_range : (setPc 0xFFE State.reset).pc.toNat ≤ 0xFFE := by decide

-- HaltedStepChangesNothingAndReturnsTheRecord
theorem witness_halted : (raiseFault .decodeError (some 0) none State.reset).fault = some ⟨.decodeError, 0x200, some 0, none⟩ := by
  decide

-- KeyWaitStepResolvesOrDoesNothing, with pc past memory
theorem witness_key_wait : let s := setPc 0x1000 (setKeyWait (some 0) State.reset)
    s.fault = none ∧ s.keyWait = some 0 ∧ s.latch = none ∧ (withLatch 0 s).keyWait = some 0 ∧ (withLatch 0 s).latch = some 0 := by
  decide

-- StallTicksTheTimersOnly, FetchAtTheLastByteFaults: the two sides of 4096
theorem witness_stall_and_last_byte :
    (State.reset.fault = none ∧ State.reset.keyWait = none) ∧ 4096 ≤ (setPc 0x1000 State.reset).pc.toNat ∧
    4096 ≤ (setPc 0xFFFF State.reset).pc.toNat ∧ (setPc 0xFFF State.reset).pc.toNat = 0xFFF := by decide

-- SkipsAdvancePcByFourOrTwo: the illegal neighbours of 5xy0 and 9xy0
theorem witness_skip_word_with_n : (1#4 : Nibble) ≠ 0 ∧ Fetches (at_ 0x5001 State.reset) ∧
    fetchWord (at_ 0x5001 State.reset) = 0x5#4 ++ 0x0#4 ++ 0x0#4 ++ 0x1#4 ∧
    fetchWord (at_ 0x9FFF State.reset) = 0x9#4 ++ 0xF#4 ++ 0xF#4 ++ 0xF#4 :=
  ⟨by decide, fetches_at _ _ (by decide), by decide, by decide⟩

-- CallPushesTheReturnAddress, CallThenReturnResumesAfterTheCall: depths 0, 15 and 16
theorem witness_call_depth : (withSp 0 State.reset).sp.val < 16 ∧ (withSp 15 State.reset).sp.val < 16 ∧
    (withSp 16 State.reset).sp.val = 16 := by decide

-- ReturnPopsTheReturnAddress: depths 16, 1 and 0
theorem witness_return_depth : (withSp 16 State.reset).sp.val ≠ 0 ∧ (withSp 1 State.reset).sp.val ≠ 0 ∧
    (withSp 0 State.reset).sp.val = 0 := by decide

-- DrawTogglesExactlyTheSpritePixels, DrawingTwiceRestoresTheGrid: one row in the last byte of memory; no row at all with I past memory
theorem witness_draw_in_range : (∀ row, row < (1#4).toNat → effAddr (setI 0xFFF State.reset) row < 4096) ∧
    (∀ row, row < (0#4).toNat → effAddr (setI 0xFFFF State.reset) row < 4096) ∧
    (∀ row, row < (15#4).toNat → effAddr (setI 0xFF1 State.reset) row < 4096) ∧ (0#4 ≠ regF) ∧ (14#4 ≠ regF) := by decide

-- AddSetsTheCarryFlagLast, SubtractionsSetTheStrictComparisonFlagLast, ShiftsMoveTheBitOutIntoVf
theorem witness_destination_not_flag : (0x0#4 : RegIdx) ≠ regF ∧ (0xE#4 : RegIdx) ≠ regF := by decide

-- BcdDigitsAreStoredAtIndex, RegistersAreStoredAtIndex, RegistersAreLoadedFromIndex, StoreThenLoadRestoresTheRegisters: the last bytes
theorem witness_data_in_range : effAddr (setI 0xFFD State.reset) 2 < 4096 ∧
    effAddr (setI 0xFF0 State.reset) (0xF#4 : RegIdx).toNat < 4096 ∧ effAddr (setI 0xFFF State.reset) (0x0#4 : RegIdx).toNat < 4096 ∧
    (0x0#4 : RegIdx) ≤ 0xF ∧ (0xF#4 : RegIdx) ≤ 0xF := by decide

theorem witness_store_then_load :
    let s := setI 0xFF0 (regs [(0, 1), (0xF, 2)])
    let t := executed (.storeRegs 0xF) s
    exec (.storeRegs 0xF) s = .next t ∧ (setV 0 7 t).mem = t.mem ∧ (setV 0 7 t).i = t.i := ⟨rfl, rfl, rfl⟩

-- OutOfRangeDataAddressFaultsPrecisely: the first address past memory, for each clause
theorem witness_data_out_of_range :
    (∃ row, row < (1#4).toNat ∧ 4096 ≤ effAddr (setI 0x1000 State.reset) row) ∧
    (∃ row, row < (2#4).toNat ∧ 4096 ≤ effAddr (setI 0xFFF State.reset) row) ∧
    4096 ≤ effAddr (setI 0xFFE State.reset) 2 ∧ 4096 ≤ effAddr (setI 0xFF1 State.reset) (0xF#4 : RegIdx).toNat ∧
    4096 ≤ effAddr (setI 0x1000 State.reset) (0x0#4 : RegIdx).toNat :=
  ⟨⟨0, by decide, by decide⟩, ⟨1, by decide, by decide⟩, by decide, by decide, by decide⟩

-- CanonicalMemoriesThatReadAlikeAreEqual: the same two bytes written in two orders
theorem witness_canonical_memories :
    let m := memWrite (memWrite [] 0x300 1) 0x200 2
    let m' := memWrite (memWrite (memWrite [] 0x200 2) 0x300 3) 0x300 1
    Memory.wf m ∧ Memory.wf m' ∧ ∀ a, a < 4096 → memRead m a = memRead m' a := by
  refine ⟨by decide, by decide, fun a _ => ?_⟩
  simp only [memRead_memWrite]
  by_cases h : a = 0x300
  · subst h
    rfl
  · simp [h]

-- KeySkipsTestThePressFlag: the two sides of 16
theorem witness_key_index : (getV (regs [(5, 0x0F)]) 5).toNat = (0xF#4 : KeyIdx).toNat ∧
    (getV (regs [(5, 0x00)]) 5).toNat = (0x0#4 : KeyIdx).toNat ∧ 16 ≤ (getV (regs [(5, 0x10)]) 5).toNat := by decide

-- TimerInstructionsMoveTheTimers
theorem witness_timer_instructions : Fetches (at_ 0xFF07 State.reset) ∧
    decodeWord (fetchWord (at_ 0xFF07 State.reset)) = .instr (.ldVxDt 0xF) ∧
    decodeWord (fetchWord (at_ 0xF015 State.reset)) = .instr (.ldDtVx 0x0) ∧
    decodeWord (fetchWord (at_ 0xF018 State.reset)) = .instr (.ldStVx 0x0) :=
  ⟨fetches_at _ _ (by decide), by decide, by decide, by decide⟩

-- LatchedKeyAnswersTheKeyReadOneStepLater: with a latched key and without
theorem witness_key_read : Fetches (at_ 0xF30A (withLatch 0xF State.reset)) ∧
    decodeWord (fetchWord (at_ 0xF30A (withLatch 0xF State.reset))) = .instr (.ldVxK 3) ∧
    (at_ 0xF30A (withLatch 0xF State.reset)).latch = some 0xF ∧ (at_ 0xF30A State.reset).latch = none :=
  ⟨fetches_at _ _ (by decide), by decide, rfl, rfl⟩

-- DelayTimerReadsOneLessAtTheNextInstruction: the first word at 0xFFC, the second at 0xFFE
theorem witness_delay_timer :
    let s := at_ 0xF115 (setPc 0xFFC (storeBytes 0xFFE [0xF2, 0x07] (regs [(1, 3)])))
    Fetches s ∧ decodeWord (fetchWord s) = .instr (.ldDtVx 1) ∧ step s = .next (stepped s) ∧
    (stepped s).pc.toNat ≤ 0xFFE ∧ decodeWord (fetchWord (stepped s)) = .instr (.ldVxDt 2) :=
  ⟨fetches_at _ _ (by decide), by decide, rfl, by decide, by decide⟩

-- StoredInstructionIsFetchedByTheNextStep: the store overwrites the last word of memory
theorem witness_stored_instruction :
    let s := at_ 0xF155 (setPc 0xFFC (setI 0xFFE State.reset))
    Fetches s ∧ decodeWord (fetchWord s) = .instr (.storeRegs 1) ∧ s.i = s.pc + 2 ∧ (1#4 : RegIdx) ≤ 1 ∧
    effAddr s (1#4 : RegIdx).toNat < 4096 :=
  ⟨fetches_at _ _ (by decide), by decide, by decide, by decide, by decide⟩

-- KeyEventSetsTheFlagAndLatchesReleases, EveryHostOperationHasItsOwnFrameAndReply: the two sides of 16
theorem witness_key_events : 15 < 16 ∧ 16 ≤ 16 ∧ (∀ image, HostOp.keyEvent 15 false ≠ .reset image) ∧ HostOp.keyEvent 15 false ≠ .step ∧
    ∃ t, hostOp (.keyEvent 15 false) (withKey 15 State.reset) = .next t ∧ t.latch = some 15 ∧
      keyPressed (withKey 15 State.reset) 15 = true :=
  ⟨by decide, by decide, by simp, by simp, _, rfl, by decide, by decide⟩

end Sys2Proof.Tests
end

section
/-! PROOFS. Memory (20_memory): the word that fetch combines of two bytes, and its two high nibbles. -/

namespace Sys2Proof

/-! ### The word of two bytes -/

theorem toNat_wordOfBytes (hi lo : Byte) : (wordOfBytes hi lo).toNat = 256 * hi.toNat + lo.toNat := by
  have happend : (wordOfBytes hi lo).toNat = hi.toNat <<< 8 ||| lo.toNat := BitVec.toNat_append hi lo
  rw [happend, ← Nat.shiftLeft_add_eq_or_of_lt lo.isLt, Nat.shiftLeft_eq, Nat.mul_comm]

@[simp] theorem fieldOp_wordOfBytes (hi lo : Byte) : fieldOp (wordOfBytes hi lo) = hi.extractLsb' 4 4 :=
  BitVec.extractLsb'_append_eq_of_le (start := 12) (by decide)

@[simp] theorem fieldX_wordOfBytes (hi lo : Byte) : fieldX (wordOfBytes hi lo) = hi.extractLsb' 0 4 :=
  BitVec.extractLsb'_append_eq_of_le (start := 8) (by decide)

/-! ### Fetch -/

/-- Settles O20: fetch is `wordOfBytes` of the bytes at pc and pc + 1 (20_memory R57). The bound on pc is not needed,
because the model's `fetchWord` is total. -/
theorem fetchIsBigEndian : Obligations.FetchIsBigEndian := by
  intro s _
  exact ⟨toNat_wordOfBytes _ _, fieldOp_wordOfBytes _ _, fieldX_wordOfBytes _ _⟩

end Sys2Proof
end

section
/-! PROOFS. Encoding (30_encoding): the groups that have no sub-opcode. -/

namespace Sys2Proof

/-- Settles O4: each of the ten groups has one decoding law, and that law answers an instruction without looking at
any bit past nibble0 (30_encoding R79). -/
theorem groupsWithoutSubOpcodeAreWhollyLegal : Obligations.GroupsWithoutSubOpcodeAreWhollyLegal := by
  intro w hgroup
  simp only [List.mem_cons, List.not_mem_nil, or_false] at hgroup
  rcases hgroup with h1 | h2 | h3 | h4 | h6 | h7 | hA | hB | hC | hD
  · exact ⟨_, decodeWord_op1 h1⟩
  · exact ⟨_, decodeWord_op2 h2⟩
  · exact ⟨_, decodeWord_op3 h3⟩
  · exact ⟨_, decodeWord_op4 h4⟩
  · exact ⟨_, decodeWord_op6 h6⟩
  · exact ⟨_, decodeWord_op7 h7⟩
  · exact ⟨_, decodeWord_opA hA⟩
  · exact ⟨_, decodeWord_opB hB⟩
  · exact ⟨_, decodeWord_opC hC⟩
  · exact ⟨_, decodeWord_opD hD⟩

end Sys2Proof
end

section
/-! PROOFS. The step cycle (40_step_cycle): the step of a core that waits for a key. -/

namespace Sys2Proof
open Sys2Proof.Machine

/-- The key-wait step resolves the wait, without a tick, a fetch or a look at pc (40_step_cycle R102). -/
theorem step_of_keyWait {s : State} {r : RegIdx} (hfault : s.fault = none) (hwait : s.keyWait = some r) :
    step s = .next (keyWaitStep r s) := by
  simp [step, beginStep, hfault, hwait]

@[simp] theorem keyWaitStep_fault (r : RegIdx) (s : State) : (keyWaitStep r s).fault = s.fault := by
  rcases hlatch : s.latch with _ | k
  · rw [keyWaitStep_none r hlatch]
  · simp [keyWaitStep_some r hlatch]

theorem onlyWrites_clearLatch (s : State) : OnlyWrites (· = .latch) s { s with latch := none } := by
  apply onlyWrites_intro <;> simp [getV, keyPressed, fbGet, readByte]

theorem onlyWrites_setKeyWait (r : Option RegIdx) (s : State) : OnlyWrites (· = .keyWait) s (setKeyWait r s) := by
  apply onlyWrites_intro <;> simp

/-- The frame composes the three writes of the resolution: the latch, the target register, the wait. -/
theorem onlyWrites_keyWaitStep (r : RegIdx) (s : State) :
    OnlyWrites (fun p => p = .v r ∨ p = .keyWait ∨ p = .latch) s (keyWaitStep r s) := by
  rcases hlatch : s.latch with _ | k
  · rw [keyWaitStep_none r hlatch]
    exact onlyWrites_refl s
  · rw [keyWaitStep_some r hlatch]
    have hl := onlyWrites_clearLatch s
    have hv := onlyWrites_setV r (byteOfKey k) { s with latch := none }
    have hw := onlyWrites_setKeyWait none (setV r (byteOfKey k) { s with latch := none })
    exact onlyWrites_trans (onlyWrites_mono (fun _ h => .inr (.inr h)) hl)
      (onlyWrites_trans (onlyWrites_mono (fun _ => .inl) hv) (onlyWrites_mono (fun _ h => .inr (.inl h)) hw))

/-- Settles O22: the step is `keyWaitStep`, which with a latched key writes the register, the wait and the latch,
and with none is the identity (40_step_cycle R102). -/
theorem keyWaitStepResolvesOrDoesNothing : Obligations.KeyWaitStepResolvesOrDoesNothing := by
  intro s r hfault hwait
  have hstep := step_of_keyWait hfault hwait
  refine ⟨fun k hlatch => ?latched, fun hlatch => ?unlatched⟩
  case latched =>
    have hreturn : stepReturn (keyWaitStep r s) = none := (keyWaitStep_fault r s).trans hfault
    refine ⟨_, hstep, ?_, ?_, ?_, hreturn, onlyWrites_keyWaitStep r s⟩ <;>
      simp [keyWaitStep_some r hlatch, getV_setV]
  case unlatched => exact ⟨by rw [hstep, keyWaitStep_none r hlatch], hfault⟩

end Sys2Proof
end

section
/-! PROOFS. Control flow (41_flow): the two jumps, the four skips, and the illegal neighbours of the register skips. -/

namespace Sys2Proof
open Sys2Proof.Machine

/-! ### The words of the jumps and the skips (30_encoding R73) -/

theorem decodeWord_jp (nnn : Addr12) : decodeWord (0x1#4 ++ nnn) = .instr (.jp nnn) := by
  rw [decodeWord_op1 (fieldOp_nnn _ _), fieldNnn_nnn]

theorem decodeWord_jpV0 (nnn : Addr12) : decodeWord (0xB#4 ++ nnn) = .instr (.jpV0 nnn) := by
  rw [decodeWord_opB (fieldOp_nnn _ _), fieldNnn_nnn]

theorem decodeWord_seImm (x : RegIdx) (kk : Byte) : decodeWord (0x3#4 ++ x ++ kk) = .instr (.seImm x kk) := by
  rw [decodeWord_op3 (fieldOp_xkk _ _ _), fieldX_xkk, fieldKk_xkk]

theorem decodeWord_sneImm (x : RegIdx) (kk : Byte) : decodeWord (0x4#4 ++ x ++ kk) = .instr (.sneImm x kk) := by
  rw [decodeWord_op4 (fieldOp_xkk _ _ _), fieldX_xkk, fieldKk_xkk]

theorem decodeWord_seReg (x y : RegIdx) : decodeWord (0x5#4 ++ x ++ y ++ 0x0#4) = .instr (.seReg x y) := by
  rw [decodeWord_op5 (fieldOp_xyn _ _ _ _), if_pos (fieldN_xyn _ _ _ _), fieldX_xyn, fieldY_xyn]

theorem decodeWord_sneReg (x y : RegIdx) : decodeWord (0x9#4 ++ x ++ y ++ 0x0#4) = .instr (.sneReg x y) := by
  rw [decodeWord_op9 (fieldOp_xyn _ _ _ _), if_pos (fieldN_xyn _ _ _ _), fieldX_xyn, fieldY_xyn]

theorem decodeWord_group5_illegal (x y : RegIdx) {n : Nibble} (hn : n ≠ 0x0#4) :
    decodeWord (0x5#4 ++ x ++ y ++ n) = .illegal (.group5 (0x5#4 ++ x ++ y ++ n)) := by
  rw [decodeWord_op5 (fieldOp_xyn _ _ _ _), fieldN_xyn, if_neg hn]

theorem decodeWord_group9_illegal (x y : RegIdx) {n : Nibble} (hn : n ≠ 0x0#4) :
    decodeWord (0x9#4 ++ x ++ y ++ n) = .illegal (.group9 (0x9#4 ++ x ++ y ++ n)) := by
  rw [decodeWord_op9 (fieldOp_xyn _ _ _ _), fieldN_xyn, if_neg hn]

/-! ### What they execute to: `setPc` for a jump, `skipIf` of the condition for a skip -/

section
variable (s : State)

theorem exec_jp (nnn : Addr12) : exec (.jp nnn) s = .next (setPc (addrOf nnn) s) := rfl
theorem exec_jpV0 (nnn : Addr12) : exec (.jpV0 nnn) s = .next (setPc (offsetTarget nnn (getV s 0)) s) := rfl
theorem exec_seImm (x : RegIdx) (kk : Byte) : exec (.seImm x kk) s = .next (skipIf (getV s x == kk) s) := rfl
theorem exec_sneImm (x : RegIdx) (kk : Byte) : exec (.sneImm x kk) s = .next (skipIf (getV s x != kk) s) := rfl
theorem exec_seReg (x y : RegIdx) : exec (.seReg x y) s = .next (skipIf (getV s x == getV s y) s) := rfl
theorem exec_sneReg (x y : RegIdx) : exec (.sneReg x y) s = .next (skipIf (getV s x != getV s y) s) := rfl

theorem skipIf_beq_pc (a b : Byte) : (skipIf (a == b) s).pc = if a = b then s.pc + 4 else s.pc + 2 := by
  simp

theorem skipIf_bne_pc (a b : Byte) : (skipIf (a != b) s).pc = if a = b then s.pc + 2 else s.pc + 4 := by
  simp

end

/-! ### The step on an illegal word -/

/-- A step that fetches an illegal word raises DecodeError after its tick (40_step_cycle R106): `Fetches` and the word's
decoding exclude every other phase of `step_cases`. -/
theorem step_of_illegal {s : State} {why : DecodeReject} (hs : Fetches s)
    (hword : decodeWord (fetchWord s) = .illegal why) :
    step s = .next (raiseFault .decodeError (some (fetchWord s)) none (timerTick s)) := by
  obtain ⟨hfault, hwait, hpc⟩ := hs
  rcases step_cases s with ⟨r, hr, -⟩ | ⟨-, r, hr, -⟩ | ⟨-, -, hr, -⟩ | ⟨-, -, hr, -⟩ | ⟨-, -, -, hstep⟩ | ⟨-, i, hi, -⟩
  · simp [hfault] at hr
  · simp [hwait] at hr
  · omega
  · omega
  · exact hstep
  · simp [hword] at hi

/-! ### The obligations -/

/-- Settles O28: the jump is one `setPc` of the zero-extended nnn (41_flow R122). -/
theorem jumpSetsPcToItsAddress : Obligations.JumpSetsPcToItsAddress := by
  intro nnn s
  exact ⟨decodeWord_jp nnn, _, exec_jp s nnn, addrOf_toNat nnn, setPc_fault s _, onlyWrites_setPc _ s⟩

/-- Settles O29: the jump is one `setPc` of the sum nnn + V0, which fits in 16 bits because nnn is at most 0xFFF and V0 at
most 0xFF (41_flow R128). -/
theorem jumpWithOffsetAddsV0WithoutWrap : Obligations.JumpWithOffsetAddsV0WithoutWrap := by
  intro nnn s
  have hpc : (setPc (offsetTarget nnn (getV s 0)) s).pc.toNat = nnn.toNat + (getV s 0).toNat := offsetTarget_toNat nnn _
  have hbound : nnn.toNat + (getV s 0).toNat ≤ 0x10FE := by omega
  exact ⟨decodeWord_jpV0 nnn, _, exec_jpV0 s nnn, hpc, hpc.trans_le hbound, setPc_fault s _, onlyWrites_setPc _ s⟩

/-- Settles O30: each skip is one `skipIf` of its comparison, and n ≠ 0 makes a 5xyn or 9xyn word illegal, so that the
step raises DecodeError (41_flow R124 to R127). -/
theorem skipsAdvancePcByFourOrTwo : Obligations.SkipsAdvancePcByFourOrTwo := by
  refine ⟨fun x kk s => ?seImm, fun x kk s => ?sneImm, fun x y s => ?seReg, fun x y s => ?sneReg,
    fun x y n s hn hs hword => ?illegal⟩
  case seImm =>
    exact ⟨decodeWord_seImm x kk, _, exec_seImm s x kk, skipIf_beq_pc s _ _, onlyWrites_skipIf _ s⟩
  case sneImm =>
    exact ⟨decodeWord_sneImm x kk, _, exec_sneImm s x kk, skipIf_bne_pc s _ _, onlyWrites_skipIf _ s⟩
  case seReg =>
    exact ⟨decodeWord_seReg x y, _, exec_seReg s x y, skipIf_beq_pc s _ _, onlyWrites_skipIf _ s⟩
  case sneReg =>
    exact ⟨decodeWord_sneReg x y, _, exec_sneReg s x y, skipIf_bne_pc s _ _, onlyWrites_skipIf _ s⟩
  case illegal =>
    have hillegal : ∃ why, decodeWord (fetchWord s) = .illegal why := by
      rcases hword with h5 | h9
      · exact ⟨_, h5 ▸ decodeWord_group5_illegal x y hn⟩
      · exact ⟨_, h9 ▸ decodeWord_group9_illegal x y hn⟩
    obtain ⟨why, hwhy⟩ := hillegal
    exact ⟨_, step_of_illegal hs hwhy, raiseFault_fault _ _ _ _⟩

end Sys2Proof
end

section
/-! PROOFS. Display (42_display): the word of CLS, and what CLS writes. -/

namespace Sys2Proof
open Sys2Proof.Machine

/-! ### The word of CLS (30_encoding R74): no group but group 0 holds it, and group 0 holds it once -/

theorem decodeGroup0_eq_cls_iff (w : Word) : decodeGroup0 w = .instr .cls ↔ w = 0x00E0 := by
  unfold decodeGroup0
  split_ifs with hcls <;> simp [hcls]

theorem decodeGroup8_ne_cls (w : Word) : decodeGroup8 w ≠ .instr .cls := by
  unfold decodeGroup8
  split_ifs <;> simp

theorem decodeGroupE_ne_cls (w : Word) : decodeGroupE w ≠ .instr .cls := by
  unfold decodeGroupE
  split_ifs <;> simp

theorem decodeGroupF_ne_cls (w : Word) : decodeGroupF w ≠ .instr .cls := by
  unfold decodeGroupF
  split_ifs <;> simp

/-- One decoding law per major opcode: each answers another instruction, an illegal word, or its group's decoding. -/
theorem decodeWord_ne_cls_of_op {w : Word} (hop : fieldOp w ≠ 0x0#4) : decodeWord w ≠ .instr .cls := by
  rcases (nibble_cases (fieldOp w)).resolve_left hop with
    h1 | h2 | h3 | h4 | h5 | h6 | h7 | h8 | h9 | hA | hB | hC | hD | hE | hF
  · simp [decodeWord_op1 h1]
  · simp [decodeWord_op2 h2]
  · simp [decodeWord_op3 h3]
  · simp [decodeWord_op4 h4]
  · rw [decodeWord_op5 h5]
    split_ifs <;> simp
  · simp [decodeWord_op6 h6]
  · simp [decodeWord_op7 h7]
  · exact decodeWord_op8 h8 ▸ decodeGroup8_ne_cls w
  · rw [decodeWord_op9 h9]
    split_ifs <;> simp
  · simp [decodeWord_opA hA]
  · simp [decodeWord_opB hB]
  · simp [decodeWord_opC hC]
  · simp [decodeWord_opD hD]
  · exact decodeWord_opE hE ▸ decodeGroupE_ne_cls w
  · exact decodeWord_opF hF ▸ decodeGroupF_ne_cls w

theorem decodeWord_eq_cls_iff (w : Word) : decodeWord w = .instr .cls ↔ w = 0x00E0 := by
  by_cases hop : fieldOp w = 0x0#4
  · rw [decodeWord_op0 hop, decodeGroup0_eq_cls_iff]
  · have hword : w ≠ 0x00E0 := fun h => hop (h ▸ by decide)
    exact iff_of_false (decodeWord_ne_cls_of_op hop) hword

/-! ### What CLS executes to: `fbClear`, then the next pc -/

theorem exec_cls (s : State) : exec .cls s = .next (next (fbClear s)) := rfl

@[simp] theorem fbClear_pc (s : State) : (fbClear s).pc = s.pc := (rfl)
@[simp] theorem fbClear_dirty (s : State) : (fbClear s).dirty = true := (rfl)

theorem drawnFrom_fbClear (s : State) : DrawnFrom s (fbClear s) := rfl

theorem onlyWrites_next_fbClear (s : State) :
    OnlyWrites (fun p => (∃ x y, p = .pixel x y) ∨ p = .dirty ∨ p = .pc) s (next (fbClear s)) :=
  have hclear := onlyWrites_drawnFrom (drawnFrom_fbClear s)
  have hpc := onlyWrites_next (fbClear s)
  onlyWrites_trans (onlyWrites_mono (fun _ => Or.imp_right .inl) hclear)
    (onlyWrites_mono (fun _ h => .inr (.inr h)) hpc)

/-- The port answers the flag it finds (60_exceptions R250). -/
theorem consumeDirty_fst (s : State) : (consumeDirty s).1 = s.dirty := rfl

/-! ### The obligation -/

/-- Settles O34: 0x00E0 is the one word of CLS, and CLS is one `fbClear` before the next pc, so that the first
consume_dirty after it finds the flag set and the second finds it cleared by the first (42_display R150). -/
theorem clsClearsEveryPixelAndMarksDirty : Obligations.ClsClearsEveryPixelAndMarksDirty := by
  refine ⟨decodeWord_eq_cls_iff, fun s => ⟨_, exec_cls s, ?pixels, ?dirty, ?pc, onlyWrites_next_fbClear s,
    ?first, ?second⟩⟩
  case pixels => simp
  case dirty => simp
  case pc => simp
  case first => simp [consumeDirty_fst]
  case second => rw [consumeDirty_fst, consumeDirty_dirty]

end Sys2Proof
end

section
/-! PROOFS. Arithmetic and logic (43_alu): the two instructions with an immediate operand. -/

namespace Sys2Proof
open Sys2Proof.Machine

/-! ### The words of LD Vx, kk and ADD Vx, kk (30_encoding R73) -/

theorem decodeWord_ldImm (x : RegIdx) (kk : Byte) : decodeWord (0x6#4 ++ x ++ kk) = .instr (.ldImm x kk) := by
  rw [decodeWord_op6 (fieldOp_xkk _ _ _), fieldX_xkk, fieldKk_xkk]

theorem decodeWord_addImm (x : RegIdx) (kk : Byte) : decodeWord (0x7#4 ++ x ++ kk) = .instr (.addImm x kk) := by
  rw [decodeWord_op7 (fieldOp_xkk _ _ _), fieldX_xkk, fieldKk_xkk]

/-! ### What they execute to: one `setV`, then the next pc -/

theorem exec_ldImm (s : State) (x : RegIdx) (kk : Byte) : exec (.ldImm x kk) s = .next (next (setV x kk s)) := rfl
theorem exec_addImm (s : State) (x : RegIdx) (kk : Byte) :
    exec (.addImm x kk) s = .next (next (setV x (getV s x + kk) s)) := rfl

theorem getV_next_setV_same (x : RegIdx) (b : Byte) (s : State) : getV (next (setV x b s)) x = b := by
  rw [getV_next, getV_setV, if_pos rfl]

theorem next_setV_pc (x : RegIdx) (b : Byte) (s : State) : (next (setV x b s)).pc = s.pc + 2 := by
  simp

theorem onlyWrites_next_setV (x : RegIdx) (b : Byte) (s : State) :
    OnlyWrites (fun p => p = .v x ∨ p = .pc) s (next (setV x b s)) :=
  onlyWrites_trans (onlyWrites_mono (fun _ => .inl) (onlyWrites_setV x b s))
    (onlyWrites_mono (fun _ => .inr) (onlyWrites_next _))

/-! ### The obligation -/

/-- Settles O37: each of the two is one `setV` before the next pc, of kk (43_alu R160) or of the 8-bit sum with kk
(R161), and `setV` writes no other register. -/
theorem immediateLoadAndAddWriteOnlyVx : Obligations.ImmediateLoadAndAddWriteOnlyVx := by
  intro x kk s
  have hsum : (getV (next (setV x (getV s x + kk) s)) x).toNat = ((getV s x).toNat + kk.toNat) % 256 := by
    rw [getV_next_setV_same, BitVec.toNat_add]
  exact ⟨decodeWord_ldImm x kk,
    ⟨_, exec_ldImm s x kk, getV_next_setV_same x kk s, next_setV_pc x kk s, onlyWrites_next_setV x kk s⟩,
    decodeWord_addImm x kk,
    ⟨_, exec_addImm s x kk, hsum, next_setV_pc x _ s, onlyWrites_next_setV x _ s⟩⟩

end Sys2Proof
end

section
/-! PROOFS. Index register (44_index_memory): the two instructions that load I. -/

namespace Sys2Proof
open Sys2Proof.Machine

/-! ### The words of LD I, nnn and LD F, Vx (30_encoding R73, R78) -/

theorem decodeWord_ldI (nnn : Addr12) : decodeWord (0xA#4 ++ nnn) = .instr (.ldI nnn) := by
  rw [decodeWord_opA (fieldOp_nnn _ _), fieldNnn_nnn]

theorem decodeGroupF_ldF {w : Word} (h : fieldKk w = 0x29#8) : decodeGroupF w = .instr (.ldF (fieldX w)) := by
  simp [decodeGroupF, h]

theorem decodeWord_ldF (x : RegIdx) : decodeWord (0xF#4 ++ x ++ 0x29#8) = .instr (.ldF x) := by
  rw [decodeWord_opF (fieldOp_xkk _ _ _), decodeGroupF_ldF (fieldKk_xkk _ _ _), fieldX_xkk]

/-! ### What they execute to: one `setI`, then the next pc -/

theorem exec_ldI (s : State) (nnn : Addr12) : exec (.ldI nnn) s = .next (next (setI (addrOf nnn) s)) := rfl
theorem exec_ldF (s : State) (x : RegIdx) : exec (.ldF x) s = .next (next (setI (glyphAddr (getV s x)) s)) := rfl

theorem next_setI_i (a : Word) (s : State) : (next (setI a s)).i = a := by
  rw [next_i, setI_i]

theorem next_setI_pc (a : Word) (s : State) : (next (setI a s)).pc = s.pc + 2 := by
  simp

theorem onlyWrites_setI (a : Word) (s : State) : OnlyWrites (· = .i) s (setI a s) := by
  apply onlyWrites_intro <;> simp

theorem onlyWrites_next_setI (a : Word) (s : State) :
    OnlyWrites (fun p => p = .i ∨ p = .pc) s (next (setI a s)) :=
  onlyWrites_trans (onlyWrites_mono (fun _ => .inl) (onlyWrites_setI a s))
    (onlyWrites_mono (fun _ => .inr) (onlyWrites_next _))

/-! ### The obligation -/

/-- Settles O43: each of the two is one `setI` before the next pc, of the zero-extended nnn (44_index_memory R190) or of
the glyph address Vx × 5, which fits in 16 bits and so needs no mask (R192). -/
theorem indexIsSetToAddressOrGlyph : Obligations.IndexIsSetToAddressOrGlyph := by
  refine ⟨fun nnn s => ?ldI, fun x s => ?ldF⟩
  case ldI =>
    have hi : (next (setI (addrOf nnn) s)).i.toNat = nnn.toNat := by rw [next_setI_i, addrOf_toNat]
    exact ⟨decodeWord_ldI nnn, _, exec_ldI s nnn, hi, next_setI_pc _ s, onlyWrites_next_setI _ s⟩
  case ldF =>
    have hi : (next (setI (glyphAddr (getV s x)) s)).i.toNat = (getV s x).toNat * 5 := by
      rw [next_setI_i, glyphAddr_toNat]
    exact ⟨decodeWord_ldF x, _, exec_ldF s x, hi, next_setI_pc _ s, onlyWrites_next_setI _ s⟩

end Sys2Proof
end

section
/-! PROOFS. Keys and timers (45_keys_timers): the three instructions that move a timer. -/

namespace Sys2Proof
open Sys2Proof.Machine

/-! ### The words of LD Vx, DT, LD DT, Vx and LD ST, Vx (30_encoding R73, R78) -/

theorem decodeWord_groupF (x : RegIdx) (kk : Byte) :
    decodeWord (0xF#4 ++ x ++ kk) = decodeGroupF (0xF#4 ++ x ++ kk) :=
  decodeWord_opF (fieldOp_xkk _ _ _)

theorem decodeWord_ldVxDt (x : RegIdx) : decodeWord (0xF#4 ++ x ++ 0x07#8) = .instr (.ldVxDt x) := by
  rw [decodeWord_groupF]
  simp [decodeGroupF]

theorem decodeWord_ldDtVx (x : RegIdx) : decodeWord (0xF#4 ++ x ++ 0x15#8) = .instr (.ldDtVx x) := by
  rw [decodeWord_groupF]
  simp [decodeGroupF]

theorem decodeWord_ldStVx (x : RegIdx) : decodeWord (0xF#4 ++ x ++ 0x18#8) = .instr (.ldStVx x) := by
  rw [decodeWord_groupF]
  simp [decodeGroupF]

/-! ### What they execute to: one write, of a register or of a timer, then the next pc -/

theorem exec_ldVxDt (x : RegIdx) (s : State) : exec (.ldVxDt x) s = .next (next (setV x s.dt s)) := rfl
theorem exec_ldDtVx (x : RegIdx) (s : State) : exec (.ldDtVx x) s = .next (next (setDt (getV s x) s)) := rfl
theorem exec_ldStVx (x : RegIdx) (s : State) : exec (.ldStVx x) s = .next (next (setSt (getV s x) s)) := rfl

theorem onlyWrites_setDt (b : Byte) (s : State) : OnlyWrites (· = .dt) s (setDt b s) := by
  apply onlyWrites_intro <;> simp

theorem onlyWrites_setSt (b : Byte) (s : State) : OnlyWrites (· = .st) s (setSt b s) := by
  apply onlyWrites_intro <;> simp

/-- The pc of the next instruction joins the one part an instruction has written. -/
theorem onlyWrites_next_of_onlyWrites {p : Part} {s t : State} (h : OnlyWrites (· = p) s t) :
    OnlyWrites (fun q => q = p ∨ q = .pc) s (next t) :=
  onlyWrites_trans (onlyWrites_mono (fun _ => .inl) h) (onlyWrites_mono (fun _ => .inr) (onlyWrites_next t))

/-! ### The step that executes an instruction -/

/-- A step that fetches an instruction executes it after its tick (40_step_cycle R107): `Fetches` and the word's decoding
exclude every other phase of `step_cases`. -/
theorem step_of_instr {s : State} {i : Instr} (hs : Fetches s) (hword : decodeWord (fetchWord s) = .instr i) :
    step s = exec i (timerTick s) := by
  obtain ⟨hfault, hwait, hpc⟩ := hs
  rcases step_cases s with
    ⟨r, hr, -⟩ | ⟨-, r, hr, -⟩ | ⟨-, -, hr, -⟩ | ⟨-, -, hr, -⟩ | ⟨-, why, hwhy, -⟩ | ⟨-, j, hj, hstep⟩
  · simp [hfault] at hr
  · simp [hwait] at hr
  · omega
  · omega
  · simp [hword] at hwhy
  · obtain rfl : i = j := by simpa [hword] using hj
    exact hstep

section
variable {x : RegIdx} {s : State} (hs : Fetches s)
include hs

/-- The register receives the ticked DT. -/
theorem step_ldVxDt (hword : decodeWord (fetchWord s) = .instr (.ldVxDt x)) :
    step s = .next (next (setV x (countDown s.dt) (timerTick s))) := by
  rw [step_of_instr hs hword, exec_ldVxDt, timerTick_dt]

/-- DT is written after the tick, with a register the tick leaves alone. -/
theorem step_ldDtVx (hword : decodeWord (fetchWord s) = .instr (.ldDtVx x)) :
    step s = .next (next (setDt (getV s x) (timerTick s))) := by
  rw [step_of_instr hs hword, exec_ldDtVx, getV_timerTick]

/-- ST is written after the tick, with a register the tick leaves alone. -/
theorem step_ldStVx (hword : decodeWord (fetchWord s) = .instr (.ldStVx x)) :
    step s = .next (next (setSt (getV s x) (timerTick s))) := by
  rw [step_of_instr hs hword, exec_ldStVx, getV_timerTick]

end

/-! ### The obligation -/

/-- Settles O52: each of the three is one write before the next pc, `setV` of DT (45_keys_timers R212), `setDt` (R214) or
`setSt` (R215) of V[x]; the step executes it on the ticked state, in which DT is counted down and V[x] is as before. -/
theorem timerInstructionsMoveTheTimers : Obligations.TimerInstructionsMoveTheTimers := by
  intro x s
  refine ⟨decodeWord_ldVxDt x, ?ldVxDt, fun hs hword => ⟨_, step_ldVxDt hs hword, ?ticked⟩,
    decodeWord_ldDtVx x, ?ldDtVx, fun hs hword => ⟨_, step_ldDtVx hs hword, by simp⟩,
    decodeWord_ldStVx x, ?ldStVx, fun hs hword => ⟨_, step_ldStVx hs hword, by simp⟩⟩
  case ldVxDt =>
    exact ⟨_, exec_ldVxDt x s, getV_next_setV_same x _ s, next_setV_pc x _ s, onlyWrites_next_setV x _ s⟩
  case ticked => rw [getV_next_setV_same, countDown_toNat]
  case ldDtVx =>
    exact ⟨_, exec_ldDtVx x s, by simp, by simp, onlyWrites_next_of_onlyWrites (onlyWrites_setDt _ s)⟩
  case ldStVx =>
    have hst : (next (setSt (getV s x) s)).st = getV s x := by simp
    exact ⟨_, exec_ldStVx x s, hst, hst, by simp, onlyWrites_next_of_onlyWrites (onlyWrites_setSt _ s)⟩

end Sys2Proof
end

section
/-! PROOFS. Timers and framebuffer controller (60_exceptions): the host's timer tick, and the dirty flag under consume_dirty
and under a step. -/

namespace Sys2Proof
open Sys2Proof.Machine

/-! ### The timer tick -/

/-- Settles O26: the tick is `countDown` of each timer by itself, a natural subtraction, and writes nothing else
(60_exceptions R244); reset gives both timers 0. -/
theorem timerTickSaturatesAtZero : Obligations.TimerTickSaturatesAtZero := by
  refine ⟨fun s => ⟨?dt, ?st, onlyWrites_timerTick s⟩, rfl, rfl⟩
  case dt => rw [timerTick_dt, countDown_toNat]
  case st => rw [timerTick_st, countDown_toNat]

/-! ### What a step does to the dirty flag: it stays or is set -/

@[simp] theorem rngDraw_dirty (s : State) : (rngDraw s).2.dirty = s.dirty := (rfl)

theorem push_dirty {a : Word} {s t : State} (h : push a s = some t) : t.dirty = s.dirty := by
  obtain ⟨_, rfl⟩ := push_eq_some h
  rfl

theorem pop_dirty {a : Word} {s t : State} (h : pop s = some (a, t)) : t.dirty = s.dirty := by
  obtain ⟨_, -, rfl⟩ := pop_eq_some h
  rfl

theorem keyWaitStep_dirty (r : RegIdx) (s : State) : (keyWaitStep r s).dirty = s.dirty :=
  onlyWrites_keyWaitStep r s .dirty (by simp)

/-- A drawn sprite marks dirty and never unmarks it (42_display R151). -/
theorem drawSprite_dirty {s : State} (cx cy : Nat) (n : Nibble) (h : s.dirty = true) :
    (drawSprite cx cy n.toNat s).1.dirty = true := by
  have hn := n.isLt
  obtain ⟨-, -, hdirty, -⟩ := drawSprite_spec s cx cy n.toNat (by omega)
  exact hdirty.2 (.inl h)

/-- Only CLS and DRW touch the flag, and both can only set it (10_state R33, R38); the other instructions, whether they
execute or fault, are made of writes that leave it alone. -/
theorem exec_keeps_dirty {i : Instr} {s t : State} (h : exec i s = .next t) (hd : s.dirty = true) :
    t.dirty = true := by
  cases i with
  | cls =>
    injection h with h
    simp [← h]
  | drw x y n =>
    simp only [exec, execDrw] at h
    split at h <;> injection h with h
    · simp [← h, drawSprite_dirty _ _ n hd]
    · simp [← h, hd]
  | call nnn =>
    simp only [exec, execCall] at h
    split at h <;> injection h with h
    next hpush => simp [← h, push_dirty hpush, hd]
    next => simp [← h, hd]
  | ret =>
    simp only [exec, execRet] at h
    split at h <;> injection h with h
    next hpop => simp [← h, pop_dirty hpop, hd]
    next => simp [← h, hd]
  | skp _ | sknp _ =>
    simp only [exec, execSkp, execSknp] at h
    split at h <;> injection h with h <;> simp [← h, hd]
  | ldB _ | storeRegs _ | loadRegs _ =>
    simp only [exec, execLdB, execStoreRegs, execLoadRegs] at h
    split at h <;> injection h with h <;> simp [← h, hd]
  | sys _ | jp _ | jpV0 _ | seImm _ _ | sneImm _ _ | seReg _ _ | sneReg _ _ | ldImm _ _ | addImm _ _ | ldReg _ _
  | orReg _ _ | andReg _ _ | xorReg _ _ | addReg _ _ | subReg _ _ | shr _ _ | subnReg _ _ | shl _ _ | rnd _ _ | ldI _
  | addI _ | ldF _ | ldVxDt _ | ldVxK _ | ldDtVx _ | ldStVx _ =>
    injection h with h
    simp [← h, hd]

/-- No step clears the dirty flag, whichever phase ends it (60_exceptions R240, R250). -/
theorem step_keeps_dirty {s t : State} (h : step s = .next t) (hd : s.dirty = true) : t.dirty = true := by
  rcases step_cases s with ⟨_, -, hstep⟩ | ⟨-, r, -, hstep⟩ | ⟨-, -, -, hstep⟩ | ⟨-, -, -, hstep⟩ | ⟨-, _, -, hstep⟩ |
    ⟨-, i, -, hstep⟩
  · cases hstep.symm.trans h
    exact hd
  · cases hstep.symm.trans h
    rwa [keyWaitStep_dirty]
  · cases hstep.symm.trans h
    rwa [timerTick_dirty]
  · cases hstep.symm.trans h
    rwa [raiseFault_dirty, timerTick_dirty]
  · cases hstep.symm.trans h
    rwa [raiseFault_dirty, timerTick_dirty]
  · exact exec_keeps_dirty (hstep.symm.trans h) (by rwa [timerTick_dirty])

/-! ### The obligation -/

/-- Settles O16: consume_dirty is a read and one write of the flag, and a step has no phase and no instruction that
clears it (60_exceptions R250). -/
theorem consumeDirtyReturnsAndClearsTheDirtyFlag : Obligations.ConsumeDirtyReturnsAndClearsTheDirtyFlag :=
  ⟨fun s => ⟨consumeDirty_fst s, consumeDirty_dirty s, onlyWrites_consumeDirty s⟩, fun _ _ => step_keeps_dirty⟩

end Sys2Proof
end

section
/-! PROOFS. Reset (70_reset): what reset keeps of its image, and the first step after it. -/

namespace Sys2Proof
open Sys2Proof.Machine

/-! ### The state after reset with an image -/

/-- Reset cuts the image, so an image that is cut already gives the same state (70_reset R281). -/
theorem resetImage_take (image : List Byte) : resetImage (image.take 3584) = resetImage image := by
  simp only [resetImage, List.take_take, Nat.min_self]

@[simp] theorem resetImage_fault (image : List Byte) : (resetImage image).fault = none := (rfl)
@[simp] theorem resetImage_pc (image : List Byte) : (resetImage image).pc = 0x200 := (rfl)

/-- Reset leaves the core neither halted nor waiting for a key, with pc inside memory. -/
theorem fetches_resetImage (image : List Byte) : Fetches (resetImage image) :=
  ⟨resetImage_fault image, rfl, by simp⟩

/-! ### The empty image -/

/-- The reset byte above FONT is 0 (10_state R37). -/
theorem resetByte_of_le {a : Nat} (h : 80 ≤ a) : resetByte a = 0 :=
  dif_neg (by omega)

theorem readByte_resetImage_nil (a : Nat) : readByte (resetImage []) a = resetByte a := memRead_nil a

theorem fetchWord_resetImage_nil : fetchWord (resetImage []) = 0x0000 := by
  have hpc : (resetImage []).pc.toNat = 0x200 := rfl
  rw [fetchWord, hpc, readByte_resetImage_nil, readByte_resetImage_nil, resetByte_of_le (by decide), resetByte_of_le (by decide)]
  rfl

/-- 0x0000 is in group 0, with x = 0, and is neither CLS nor RET (30_encoding R74). -/
theorem decodeWord_zero : decodeWord 0x0000 = .illegal (.group0 0x0000) := by
  decide

theorem step_resetImage_nil : step (resetImage []) =
    .next (raiseFault .decodeError (some 0x0000) none (timerTick (resetImage []))) := by
  rw [step_of_illegal (fetches_resetImage []) (fetchWord_resetImage_nil ▸ decodeWord_zero), fetchWord_resetImage_nil]

/-! ### The obligation -/

/-- Settles O6: the cut keeps exactly the first 3584 bytes, and reset writes no fault; with the empty image both bytes at
pc are 0, and the step on that illegal word raises DecodeError after its tick (70_reset R281). -/
theorem oversizeImageIsCutAndEmptyImageFaults : Obligations.OversizeImageIsCutAndEmptyImageFaults := by
  refine ⟨fun image extra hlength => ⟨?cut, resetImage_fault _⟩, fun a ha => ?zero, _, step_resetImage_nil, ?record⟩
  case cut => rw [← resetImage_take (image ++ extra), List.take_left' hlength]
  case zero => rw [readByte_resetImage_nil, resetByte_of_le (by omega)]
  case record => rw [raiseFault_fault, timerTick_pc, resetImage_pc]

end Sys2Proof
end

section
/-! PROOFS. Encoding (30_encoding): the decoder and the encoder undo each other, and the words no instruction has. -/

namespace Sys2Proof

/-! ### Decoding an encoded instruction -/

theorem decodeWord_group0 (nnn : Addr12) : decodeWord (0x0#4 ++ nnn) = decodeGroup0 (0x0#4 ++ nnn) :=
  decodeWord_op0 (fieldOp_nnn _ _)

theorem decodeWord_group8 (x y : RegIdx) (n : Nibble) :
    decodeWord (0x8#4 ++ x ++ y ++ n) = decodeGroup8 (0x8#4 ++ x ++ y ++ n) :=
  decodeWord_op8 (fieldOp_xyn _ _ _ _)

theorem decodeWord_groupE (x : RegIdx) (kk : Byte) :
    decodeWord (0xE#4 ++ x ++ kk) = decodeGroupE (0xE#4 ++ x ++ kk) :=
  decodeWord_opE (fieldOp_xkk _ _ _)

/-- nibble1 ≠ 0 is nibble1 of neither 00E0 nor 00EE, so a `SYS` word is no other word of its group (30_encoding R74). -/
theorem decodeGroup0_of_fieldX_ne {w : Word} (hx : fieldX w ≠ 0x0#4) : decodeGroup0 w = .instr (.sys (fieldNnn w)) := by
  have hcls : w ≠ 0x00E0#16 := fun h => hx (h ▸ by decide)
  have hret : w ≠ 0x00EE#16 := fun h => hx (h ▸ by decide)
  rw [decodeGroup0, if_neg hcls, if_neg hret, if_pos hx]

theorem decodeWord_sys {nnn : Addr12} (h : nnn.extractLsb' 8 4 ≠ 0x0#4) : decodeWord (0x0#4 ++ nnn) = .instr (.sys nnn) := by
  rw [decodeWord_group0, decodeGroup0_of_fieldX_ne (fieldX_nnn _ nnn ▸ h), fieldNnn_nnn]

theorem decodeWord_call (nnn : Addr12) : decodeWord (0x2#4 ++ nnn) = .instr (.call nnn) := by
  rw [decodeWord_op2 (fieldOp_nnn _ _), fieldNnn_nnn]

theorem decodeWord_rnd (x : RegIdx) (kk : Byte) : decodeWord (0xC#4 ++ x ++ kk) = .instr (.rnd x kk) := by
  rw [decodeWord_opC (fieldOp_xkk _ _ _), fieldX_xkk, fieldKk_xkk]

theorem decodeWord_drw (x y : RegIdx) (n : Nibble) : decodeWord (0xD#4 ++ x ++ y ++ n) = .instr (.drw x y n) := by
  rw [decodeWord_opD (fieldOp_xyn _ _ _ _), fieldX_xyn, fieldY_xyn, fieldN_xyn]

/-- The major opcode picks the group, and within groups 8, E and F the low bits pick the instruction. -/
theorem decodeWord_encode {i : Instr} (hi : i.wellFormed = true) : decodeWord (encode i) = .instr i := by
  cases i with
  | sys nnn => exact decodeWord_sys (by simpa [Instr.wellFormed] using hi)
  | cls | ret => decide
  | jp nnn => exact decodeWord_jp nnn
  | call nnn => exact decodeWord_call nnn
  | seImm x kk => exact decodeWord_seImm x kk
  | sneImm x kk => exact decodeWord_sneImm x kk
  | seReg x y => exact decodeWord_seReg x y
  | ldImm x kk => exact decodeWord_ldImm x kk
  | addImm x kk => exact decodeWord_addImm x kk
  | ldReg x y | orReg x y | andReg x y | xorReg x y | addReg x y | subReg x y | shr x y | subnReg x y | shl x y =>
    rw [encode, decodeWord_group8]
    simp [decodeGroup8]
  | sneReg x y => exact decodeWord_sneReg x y
  | ldI nnn => exact decodeWord_ldI nnn
  | jpV0 nnn => exact decodeWord_jpV0 nnn
  | rnd x kk => exact decodeWord_rnd x kk
  | drw x y n => exact decodeWord_drw x y n
  | skp x | sknp x =>
    rw [encode, decodeWord_groupE]
    simp [decodeGroupE]
  | ldVxDt x | ldVxK x | ldDtVx x | ldStVx x | addI x | ldF x | ldB x | storeRegs x | loadRegs x =>
    rw [encode, decodeWord_groupF]
    simp [decodeGroupF]

/-- Exactly the two bytes of the word are consumed (30_encoding R70). -/
theorem decodeBytes_bytesOfWord (w : Word) (rest : List Byte) :
    decodeBytes (bytesOfWord w ++ rest) = (decodeWord w, rest) := by
  simp [bytesOfWord, decodeBytes]

/-! ### Encoding a decoded word -/

/-- The word is legal and its instruction keeps every bit of it. -/
def WordOf (i : Instr) (w : Word) : Prop := i.wellFormed = true ∧ encode i = w

section
variable {w : Word} {i : Instr} {op : Nibble}

theorem op_append_nnn (hop : fieldOp w = op) : (op ++ fieldNnn w : Word) = w := by
  rw [← hop, word_eq_op_nnn]

theorem op_append_x_kk {kk : Byte} (hop : fieldOp w = op) (hkk : fieldKk w = kk) : (op ++ fieldX w ++ kk : Word) = w := by
  rw [← hop, ← hkk, word_eq_op_x_kk]

theorem op_append_x_y_n {n : Nibble} (hop : fieldOp w = op) (hn : fieldN w = n) :
    (op ++ fieldX w ++ fieldY w ++ n : Word) = w := by
  rw [← hop, ← hn, word_eq_op_x_y_n]

theorem wordOf_decodeGroup0 (hop : fieldOp w = 0x0#4) (h : decodeGroup0 w = .instr i) : WordOf i w := by
  unfold decodeGroup0 at h
  split_ifs at h with hcls hret hx <;> cases h
  · exact ⟨rfl, hcls.symm⟩
  · exact ⟨rfl, hret.symm⟩
  · exact ⟨by simpa [Instr.wellFormed, fieldX_eq_nnn] using hx, op_append_nnn hop⟩

theorem wordOf_decodeGroup8 (hop : fieldOp w = 0x8#4) (h : decodeGroup8 w = .instr i) : WordOf i w := by
  unfold decodeGroup8 at h
  split_ifs at h with h0 h1 h2 h3 h4 h5 h6 h7 hE <;> cases h
  all_goals exact ⟨rfl, op_append_x_y_n hop ‹_›⟩

theorem wordOf_decodeGroupE (hop : fieldOp w = 0xE#4) (h : decodeGroupE w = .instr i) : WordOf i w := by
  unfold decodeGroupE at h
  split_ifs at h with h1 h2 <;> cases h
  all_goals exact ⟨rfl, op_append_x_kk hop ‹_›⟩

theorem wordOf_decodeGroupF (hop : fieldOp w = 0xF#4) (h : decodeGroupF w = .instr i) : WordOf i w := by
  unfold decodeGroupF at h
  split_ifs at h with h1 h2 h3 h4 h5 h6 h7 h8 h9 <;> cases h
  all_goals exact ⟨rfl, op_append_x_kk hop ‹_›⟩

/-- Group by group: the fields the instruction carries and the fixed bits its group tests for make up the whole word
(30_encoding R82, R83). -/
theorem wordOf_decodeWord (h : decodeWord w = .instr i) : WordOf i w := by
  rcases nibble_cases (fieldOp w) with
    h0 | h1 | h2 | h3 | h4 | h5 | h6 | h7 | h8 | h9 | hA | hB | hC | hD | hE | hF
  · exact wordOf_decodeGroup0 h0 (decodeWord_op0 h0 ▸ h)
  · cases (decodeWord_op1 h1).symm.trans h
    exact ⟨rfl, op_append_nnn h1⟩
  · cases (decodeWord_op2 h2).symm.trans h
    exact ⟨rfl, op_append_nnn h2⟩
  · cases (decodeWord_op3 h3).symm.trans h
    exact ⟨rfl, op_append_x_kk h3 rfl⟩
  · cases (decodeWord_op4 h4).symm.trans h
    exact ⟨rfl, op_append_x_kk h4 rfl⟩
  · rw [decodeWord_op5 h5] at h
    split_ifs at h with hn
    cases h
    exact ⟨rfl, op_append_x_y_n h5 hn⟩
  · cases (decodeWord_op6 h6).symm.trans h
    exact ⟨rfl, op_append_x_kk h6 rfl⟩
  · cases (decodeWord_op7 h7).symm.trans h
    exact ⟨rfl, op_append_x_kk h7 rfl⟩
  · exact wordOf_decodeGroup8 h8 (decodeWord_op8 h8 ▸ h)
  · rw [decodeWord_op9 h9] at h
    split_ifs at h with hn
    cases h
    exact ⟨rfl, op_append_x_y_n h9 hn⟩
  · cases (decodeWord_opA hA).symm.trans h
    exact ⟨rfl, op_append_nnn hA⟩
  · cases (decodeWord_opB hB).symm.trans h
    exact ⟨rfl, op_append_nnn hB⟩
  · cases (decodeWord_opC hC).symm.trans h
    exact ⟨rfl, op_append_x_kk hC rfl⟩
  · cases (decodeWord_opD hD).symm.trans h
    exact ⟨rfl, op_append_x_y_n hD rfl⟩
  · exact wordOf_decodeGroupE hE (decodeWord_opE hE ▸ h)
  · exact wordOf_decodeGroupF hF (decodeWord_opF hF ▸ h)

end

/-- Settles O2: forwards the two bytes of the word give the word back, and its group and low bits the instruction;
backwards the fields an instruction carries and the bits its group tests for are all sixteen bits of the word. -/
theorem wellFormedInstructionsAndLegalWordsCorrespond : Obligations.WellFormedInstructionsAndLegalWordsCorrespond := by
  refine ⟨fun i rest hi => ?_, fun w i h => wordOf_decodeWord h⟩
  rw [encodeBytes, decodeBytes_bytesOfWord, decodeWord_encode hi]

/-! ### The illegal words -/

theorem decodeGroup0_illegal_iff (w : Word) :
    (∃ why, decodeGroup0 w = .illegal why) ↔ fieldX w = 0 ∧ w ≠ 0x00E0 ∧ w ≠ 0x00EE := by
  unfold decodeGroup0
  split_ifs with hcls hret hx <;> simp_all

theorem decodeGroup8_illegal_iff (w : Word) :
    (∃ why, decodeGroup8 w = .illegal why) ↔ fieldN w ∈ [0x8, 0x9, 0xA, 0xB, 0xC, 0xD, 0xF] := by
  unfold decodeGroup8
  rcases nibble_cases (fieldN w) with
    h | h | h | h | h | h | h | h | h | h | h | h | h | h | h | h <;> simp [h]

theorem decodeGroupE_illegal_iff (w : Word) :
    (∃ why, decodeGroupE w = .illegal why) ↔ fieldKk w ∉ [0x9E, 0xA1] := by
  unfold decodeGroupE
  split_ifs <;> simp_all

theorem decodeGroupF_illegal_iff (w : Word) :
    (∃ why, decodeGroupF w = .illegal why) ↔ fieldKk w ∉ [0x07, 0x0A, 0x15, 0x18, 0x1E, 0x29, 0x33, 0x55, 0x65] := by
  unfold decodeGroupF
  split_ifs <;> simp_all

/-- Settles O3: ten of the sixteen groups have no illegal word, and each of the other six has those its sub-opcode test
leaves over (30_encoding R74 to R79). -/
theorem illegalWordsAreExactlyTheListedOnes : Obligations.IllegalWordsAreExactlyTheListedOnes := by
  intro w
  rcases nibble_cases (fieldOp w) with
    h0 | h1 | h2 | h3 | h4 | h5 | h6 | h7 | h8 | h9 | hA | hB | hC | hD | hE | hF
  · simp [decodeWord_op0 h0, decodeGroup0_illegal_iff, h0]
  · simp [decodeWord_op1 h1, h1]
  · simp [decodeWord_op2 h2, h2]
  · simp [decodeWord_op3 h3, h3]
  · simp [decodeWord_op4 h4, h4]
  · rw [decodeWord_op5 h5]
    split_ifs with hn <;> simp [h5, hn]
  · simp [decodeWord_op6 h6, h6]
  · simp [decodeWord_op7 h7, h7]
  · simp [decodeWord_op8 h8, decodeGroup8_illegal_iff, h8]
  · rw [decodeWord_op9 h9]
    split_ifs with hn <;> simp [h9, hn]
  · simp [decodeWord_opA hA, hA]
  · simp [decodeWord_opB hB, hB]
  · simp [decodeWord_opC hC, hC]
  · simp [decodeWord_opD hD, hD]
  · simp [decodeWord_opE hE, decodeGroupE_illegal_iff, hE]
  · simp [decodeWord_opF hF, decodeGroupF_illegal_iff, hF]

/-- Settles O1: the decoder is evaluated on the twenty words. -/
theorem wordsWrittenOutFromTheMapDecode : Obligations.WordsWrittenOutFromTheMapDecode := by
  unfold Obligations.WordsWrittenOutFromTheMapDecode
  decide

end Sys2Proof
end

section
/-! PROOFS. Execution (40_step_cycle R107): what each instruction executes to, its named fault or its named writes. -/

namespace Sys2Proof
open Sys2Proof.Machine

/-! ### Instructions with no fault of their own -/

section
variable (x y : RegIdx) (s : State)

theorem exec_sys (nnn : Addr12) : exec (.sys nnn) s = .next (next s) := rfl
theorem exec_ldReg : exec (.ldReg x y) s = .next (next (setV x (getV s y) s)) := rfl
theorem exec_orReg : exec (.orReg x y) s = .next (next (setV x (getV s x ||| getV s y) s)) := rfl
theorem exec_andReg : exec (.andReg x y) s = .next (next (setV x (getV s x &&& getV s y) s)) := rfl
theorem exec_xorReg : exec (.xorReg x y) s = .next (next (setV x (getV s x ^^^ getV s y) s)) := rfl
theorem exec_addReg : exec (.addReg x y) s =
    .next (next (setResultAndFlag x (getV s x + getV s y) (carryFlag (getV s x) (getV s y)) s)) := rfl
theorem exec_subReg : exec (.subReg x y) s =
    .next (next (setResultAndFlag x (getV s x - getV s y) (greaterFlag (getV s x) (getV s y)) s)) := rfl
theorem exec_shr : exec (.shr x y) s =
    .next (next (setResultAndFlag x (getV s x >>> 1) (lowBitFlag (getV s x)) s)) := rfl
theorem exec_subnReg : exec (.subnReg x y) s =
    .next (next (setResultAndFlag x (getV s y - getV s x) (greaterFlag (getV s y) (getV s x)) s)) := rfl
theorem exec_shl : exec (.shl x y) s =
    .next (next (setResultAndFlag x (getV s x <<< 1) (highBitFlag (getV s x)) s)) := rfl
theorem exec_rnd (kk : Byte) : exec (.rnd x kk) s =
    .next (next (setV x ((rngDraw s).1 &&& kk) (rngDraw s).2)) := rfl
theorem exec_addI : exec (.addI x) s = .next (next (setI (indexPlus s.i (getV s x)) s)) := rfl
theorem exec_ldVxK : exec (.ldVxK x) s = .next (next (setKeyWait (some x) s)) := rfl

end

/-! ### CALL and RET: the stack -/

/-- The stack with one more entry (41_flow R123). -/
def pushed (a : Word) (s : State) (h : s.sp.val < 16) : State :=
  { s with stack := s.stack.set s.sp.val a h, sp := ⟨s.sp.val + 1, by omega⟩ }

/-- The stack with one entry less, the entry left in place (41_flow R121). -/
def popped (s : State) : State := { s with sp := ⟨s.sp.val - 1, by omega⟩ }

section
variable (nnn : Addr12) {s : State}

theorem exec_call_of_lt (h : s.sp.val < 16) :
    exec (.call nnn) s = .next (setPc (addrOf nnn) (pushed (s.pc + 2#16) s h)) := by
  simp only [exec, execCall, push_of_lt h]
  rfl

theorem exec_call_of_full (h : s.sp.val = 16) :
    exec (.call nnn) s = .next (raiseFault .stackOverflow (some (encode (.call nnn))) none s) := by
  simp only [exec, execCall, push_eq_none.2 h]

theorem exec_ret_of_ne (h : s.sp.val ≠ 0) :
    exec .ret s = .next (setPc (s.stack[s.sp.val - 1]'(by omega)) (popped s)) := by
  simp only [exec, execRet, pop_of_ne h]
  rfl

theorem exec_ret_of_zero (h : s.sp.val = 0) :
    exec .ret s = .next (raiseFault .stackUnderflow (some (encode .ret)) none s) := by
  simp only [exec, execRet, pop_eq_none.2 h]

end

theorem onlyWrites_pushed (a : Word) (s : State) (h : s.sp.val < 16) :
    OnlyWrites (fun p => p = .sp ∨ p = .stack ⟨s.sp.val, h⟩) s (pushed a s h) := by
  apply onlyWrites_intro <;> simp [pushed, getV, keyPressed, fbGet, readByte, Fin.ext_iff]
  intro j
  by_cases hj : j.val = s.sp.val
  · exact .inl hj
  · exact .inr (Vector.getElem_set_ne _ _ (Ne.symm hj))

theorem onlyWrites_popped (s : State) : OnlyWrites (· = .sp) s (popped s) := by
  apply onlyWrites_intro <;> simp [popped, getV, keyPressed, fbGet, readByte]

/-! ### SKP and SKNP: the key index -/

section
variable {x : RegIdx} {s : State}

theorem exec_skp_of_key {k : KeyIdx} (h : (getV s x).toNat = k.toNat) :
    exec (.skp x) s = .next (skipIf (keyPressed s k) s) := by
  simp only [exec, execSkp, keyOf_eq_some.2 h]

theorem exec_sknp_of_key {k : KeyIdx} (h : (getV s x).toNat = k.toNat) :
    exec (.sknp x) s = .next (skipIf (!keyPressed s k) s) := by
  simp only [exec, execSknp, keyOf_eq_some.2 h]

theorem exec_skp_of_no_key (h : 16 ≤ (getV s x).toNat) :
    exec (.skp x) s = .next (raiseFault .keyIndexOutOfRange (some (encode (.skp x))) none s) := by
  simp only [exec, execSkp, keyOf_eq_none.2 h]

theorem exec_sknp_of_no_key (h : 16 ≤ (getV s x).toNat) :
    exec (.sknp x) s = .next (raiseFault .keyIndexOutOfRange (some (encode (.sknp x))) none s) := by
  simp only [exec, execSknp, keyOf_eq_none.2 h]

end

/-! ### DRW, LD B, LD [I] and LD Vx, [I]: the data range -/

/-- An access of n + 1 bytes at I stays in memory exactly when its last byte does. -/
theorem dataInRange_succ_iff (s : State) (n : Nat) : dataInRange s (n + 1) = true ↔ effAddr s n < 4096 := by
  simp [dataInRange, effAddr]

theorem not_dataInRange_succ {s : State} {n : Nat} (h : 4096 ≤ effAddr s n) : ¬ dataInRange s (n + 1) = true :=
  fun hr => by
    rw [dataInRange_succ_iff] at hr
    omega

section
variable {x y : RegIdx} {n : Nibble} {s : State}

/-- The sprite drawn at the coordinates the instruction begins with, and whether it collided (42_display R151). -/
def drawn (x y : RegIdx) (n : Nibble) (s : State) : State × Bool :=
  drawSprite (getV s x).toNat (getV s y).toNat n.toNat s

/-- What DRW leaves: the drawn sprite, VF written last, the next pc. -/
def afterDrw (x y : RegIdx) (n : Nibble) (s : State) : State :=
  next (setV regF (flagByte (drawn x y n s).2) (drawn x y n s).1)

theorem exec_drw_of_inRange (h : dataInRange s n.toNat = true) :
    exec (.drw x y n) s = .next (afterDrw x y n s) :=
  if_pos h

theorem exec_drw_of_outOfRange (h : ¬ dataInRange s n.toNat = true) :
    exec (.drw x y n) s = .next (dataFault (encode (.drw x y n)) s) :=
  if_neg h

theorem exec_ldB_of_lt (h : effAddr s 2 < 4096) :
    exec (.ldB x) s = .next (next (storeBytes (effAddr s 0) (bcdDigits (getV s x)) s)) :=
  if_pos ((dataInRange_succ_iff s 2).2 h)

theorem exec_ldB_of_ge (h : 4096 ≤ effAddr s 2) : exec (.ldB x) s = .next (dataFault (encode (.ldB x)) s) :=
  if_neg (not_dataInRange_succ h)

theorem exec_storeRegs_of_lt (h : effAddr s x.toNat < 4096) :
    exec (.storeRegs x) s = .next (next (storeBytes (effAddr s 0) (regsUpTo s x) s)) :=
  if_pos ((dataInRange_succ_iff s x.toNat).2 h)

theorem exec_storeRegs_of_ge (h : 4096 ≤ effAddr s x.toNat) :
    exec (.storeRegs x) s = .next (dataFault (encode (.storeRegs x)) s) :=
  if_neg (not_dataInRange_succ h)

theorem exec_loadRegs_of_lt (h : effAddr s x.toNat < 4096) : exec (.loadRegs x) s = .next (next (loadUpTo x s)) :=
  if_pos ((dataInRange_succ_iff s x.toNat).2 h)

theorem exec_loadRegs_of_ge (h : 4096 ≤ effAddr s x.toNat) :
    exec (.loadRegs x) s = .next (dataFault (encode (.loadRegs x)) s) :=
  if_neg (not_dataInRange_succ h)

theorem drawnFrom_drawn (x y : RegIdx) (n : Nibble) (s : State) : DrawnFrom s (drawn x y n s).1 := by
  have hn := n.isLt
  obtain ⟨-, -, -, hfrom⟩ := drawSprite_spec s (getV s x).toNat (getV s y).toNat n.toNat (by omega)
  exact hfrom

theorem onlyWrites_storeBytes_bcdDigits (h : effAddr s 2 < 4096) (b : Byte) :
    OnlyWrites (AtIndex s 3) s (storeBytes (effAddr s 0) (bcdDigits b) s) :=
  onlyWrites_storeBytes s (bcdDigits b) (by simp only [length_bcdDigits]; unfold effAddr at h; omega)

theorem onlyWrites_storeBytes_regsUpTo (h : effAddr s x.toNat < 4096) :
    OnlyWrites (AtIndex s (x.toNat + 1)) s (storeBytes (effAddr s 0) (regsUpTo s x) s) := by
  have hframe := onlyWrites_storeBytes s (regsUpTo s x) (by rw [length_regsUpTo]; unfold effAddr at h; omega)
  rwa [length_regsUpTo] at hframe

theorem onlyWrites_loadUpTo (x : RegIdx) (s : State) :
    OnlyWrites (fun p => ∃ r : RegIdx, r ≤ x ∧ p = .v r) s (loadUpTo x s) := by
  apply onlyWrites_intro <;> simp [getV_loadUpTo]
  intro r
  by_cases hr : r ≤ x
  · exact .inl hr
  · exact .inr fun h => absurd h hr

end

/-! ### Every instruction: it raises its own fault, or it executes -/

/-- The fault an instruction raises itself (60_exceptions R231 to R236, R240). -/
def faulted (i : Instr) (kind : Fault) (s : State) : State :=
  raiseFault kind (some (encode i)) (if kind = .memoryOutOfBounds then some (firstBadAddr s) else none) s

/-- What holds of the state an instruction leaves when it does not fault: pc by its rule (40_step_cycle R107), its row of
the writer table (10_state R38), and what the invariant needs beside them: the only new stack entry is the return address,
and memory stays canonical. -/
structure Executed (i : Instr) (s t : State) : Prop where
  fault_eq : t.fault = s.fault
  pc_eq : t.pc.toNat = pcAfter i s
  frame : OnlyWrites (mayWrite i s) s t
  stack_eq : ∀ j : Fin 16, t.stack[j.val] = s.stack[j.val] ∨ t.stack[j.val] = s.pc + 2
  mem_wf : Memory.wf s.mem → Memory.wf t.mem

/-- pc is in every row of the writer table. -/
theorem mayWrite_pc (i : Instr) (s : State) (p : Part) (h : p = .pc) : mayWrite i s p := .inl h

section
variable {i : Instr} {s t : State}

/-- An instruction that ends with `next`: its writes before that leave the fault, pc and the stack. -/
theorem executed_next (hpcAfter : pcAfter i s = (s.pc + 2).toNat) (hframe : OnlyWrites (mayWrite i s) s t)
    (hfault : t.fault = s.fault) (hpc : t.pc = s.pc) (hstack : t.stack = s.stack)
    (hmem : Memory.wf s.mem → Memory.wf t.mem) : Executed i s (next t) where
  fault_eq := by simp [hfault]
  pc_eq := by simp [hpc, hpcAfter]
  frame := onlyWrites_trans hframe (onlyWrites_mono (mayWrite_pc i s) (onlyWrites_next t))
  stack_eq := by simp [hstack]
  mem_wf := by simpa using hmem

theorem executed_skipIf {c : Bool} (hpc : pcAfter i s = if c then (s.pc + 4).toNat else (s.pc + 2).toNat) :
    Executed i s (skipIf c s) where
  fault_eq := by simp
  pc_eq := by
    rw [skipIf_pc, hpc]
    cases c <;> rfl
  frame := onlyWrites_mono (mayWrite_pc i s) (onlyWrites_skipIf c s)
  stack_eq := by simp
  mem_wf := by simp

theorem executed_setPc {a : Word} (hpc : a.toNat = pcAfter i s) : Executed i s (setPc a s) where
  fault_eq := by simp
  pc_eq := hpc
  frame := onlyWrites_mono (mayWrite_pc i s) (onlyWrites_setPc a s)
  stack_eq := by simp
  mem_wf := by simp

theorem executed_setV {x : RegIdx} {b : Byte} (hpc : pcAfter i s = (s.pc + 2).toNat) (hrow : mayWrite i s (.v x)) :
    Executed i s (next (setV x b s)) :=
  executed_next hpc (onlyWrites_mono (by rintro _ rfl; exact hrow) (onlyWrites_setV x b s)) rfl rfl rfl id

theorem executed_setResultAndFlag {x : RegIdx} {a b : Byte} (hpc : pcAfter i s = (s.pc + 2).toNat)
    (hrow : ∀ p, p = .v x ∨ p = .v regF → mayWrite i s p) : Executed i s (next (setResultAndFlag x a b s)) :=
  executed_next hpc (onlyWrites_mono hrow (onlyWrites_setResultAndFlag x a b s)) rfl rfl rfl id

theorem executed_setI {a : Word} (hpc : pcAfter i s = (s.pc + 2).toNat) (hrow : mayWrite i s .i) :
    Executed i s (next (setI a s)) :=
  executed_next hpc (onlyWrites_mono (by rintro _ rfl; exact hrow) (onlyWrites_setI a s)) rfl rfl rfl id

theorem executed_storeBytes {a : Nat} {bs : List Byte} (hpc : pcAfter i s = (s.pc + 2).toNat)
    (hframe : OnlyWrites (mayWrite i s) s (storeBytes a bs s)) : Executed i s (next (storeBytes a bs s)) :=
  executed_next hpc hframe rfl rfl rfl fun hwf => wf_memWriteBytes hwf a bs

end

theorem onlyWrites_rngDraw (s : State) : OnlyWrites (· = .rngCount) s (rngDraw s).2 := by
  apply onlyWrites_intro <;> simp [rngDraw, getV, keyPressed, fbGet, readByte]

theorem onlyWrites_rnd (x : RegIdx) (b : Byte) (s : State) :
    OnlyWrites (fun p => p = .v x ∨ p = .rngCount) s (setV x b (rngDraw s).2) :=
  onlyWrites_trans (onlyWrites_mono (fun _ => .inr) (onlyWrites_rngDraw s))
    (onlyWrites_mono (fun _ => .inl) (onlyWrites_setV x b _))

theorem executed_call (nnn : Addr12) (s : State) (h : s.sp.val < 16) :
    Executed (.call nnn) s (setPc (addrOf nnn) (pushed (s.pc + 2#16) s h)) where
  fault_eq := rfl
  pc_eq := addrOf_toNat nnn
  frame := by
    refine onlyWrites_trans (onlyWrites_mono ?_ (onlyWrites_pushed (s.pc + 2#16) s h))
      (onlyWrites_mono (mayWrite_pc _ s) (onlyWrites_setPc _ _))
    rintro p (hp | hp)
    · exact .inr (.inl hp)
    · exact .inr (.inr (.inl ⟨_, hp, rfl⟩))
  stack_eq j := by
    by_cases hj : s.sp.val = j.val
    · exact .inr (by simp [pushed, hj])
    · exact .inl (by simp [pushed, hj])
  mem_wf := id

theorem executed_ret (s : State) : Executed .ret s (setPc (s.stack[s.sp.val - 1]'(by omega)) (popped s)) where
  fault_eq := rfl
  pc_eq := rfl
  frame := onlyWrites_trans (onlyWrites_mono (fun _ h => .inr (.inl h)) (onlyWrites_popped s))
    (onlyWrites_mono (mayWrite_pc _ s) (onlyWrites_setPc _ _))
  stack_eq _ := .inl rfl
  mem_wf := id

theorem executed_drw (x y : RegIdx) (n : Nibble) (s : State) :
    Executed (.drw x y n) s (afterDrw x y n s) := by
  have hfrom := drawnFrom_drawn x y n s
  have hdraw : OnlyWrites (mayWrite (.drw x y n) s) s (drawn x y n s).1 :=
    onlyWrites_mono (fun _ h => .inr (.inr (h.imp_right .inl))) (onlyWrites_drawnFrom hfrom)
  have hflag : OnlyWrites (mayWrite (.drw x y n) s) _ (setV regF (flagByte (drawn x y n s).2) (drawn x y n s).1) :=
    onlyWrites_mono (fun _ h => .inr (.inl h)) (onlyWrites_setV regF _ _)
  exact executed_next rfl (onlyWrites_trans hdraw hflag) hfrom.fault_eq hfrom.pc_eq hfrom.stack_eq
    fun hwf => hfrom.mem_eq ▸ hwf

/-- The key an index below 16 names, as `pcAfter` takes it. -/
theorem toNat_eq_toNat_setWidth {b : Byte} (h : b.toNat < 16) : b.toNat = (b.setWidth 4).toNat := by
  rw [BitVec.toNat_setWidth, Nat.mod_eq_of_lt h]

/-- Every instruction answers a next state: its own fault, or its execution (40_step_cycle R107, 60_exceptions R240). -/
theorem exec_cases (i : Instr) (s : State) :
    (∃ kind, ownFault i = some kind ∧ exec i s = .next (faulted i kind s)) ∨
    ∃ t, exec i s = .next t ∧ Executed i s t := by
  cases i with
  | sys nnn => exact .inr ⟨_, exec_sys s nnn, executed_next rfl (onlyWrites_refl s) rfl rfl rfl id⟩
  | cls =>
    have hframe := onlyWrites_drawnFrom (drawnFrom_fbClear s)
    exact .inr ⟨_, exec_cls s, executed_next rfl (onlyWrites_mono (fun _ => .inr) hframe) rfl rfl rfl id⟩
  | ret =>
    by_cases h : s.sp.val = 0
    · exact .inl ⟨_, rfl, exec_ret_of_zero h⟩
    · exact .inr ⟨_, exec_ret_of_ne h, executed_ret s⟩
  | jp nnn => exact .inr ⟨_, exec_jp s nnn, executed_setPc (addrOf_toNat nnn)⟩
  | call nnn =>
    by_cases h : s.sp.val < 16
    · exact .inr ⟨_, exec_call_of_lt nnn h, executed_call nnn s h⟩
    · exact .inl ⟨_, rfl, exec_call_of_full nnn (by omega)⟩
  | seImm x kk => exact .inr ⟨_, exec_seImm s x kk, executed_skipIf (by simp [pcAfter])⟩
  | sneImm x kk => exact .inr ⟨_, exec_sneImm s x kk, executed_skipIf (by simp [pcAfter])⟩
  | seReg x y => exact .inr ⟨_, exec_seReg s x y, executed_skipIf (by simp [pcAfter])⟩
  | sneReg x y => exact .inr ⟨_, exec_sneReg s x y, executed_skipIf (by simp [pcAfter])⟩
  | ldImm x kk => exact .inr ⟨_, exec_ldImm s x kk, executed_setV rfl (.inr rfl)⟩
  | addImm x kk => exact .inr ⟨_, exec_addImm s x kk, executed_setV rfl (.inr rfl)⟩
  | ldReg x y => exact .inr ⟨_, exec_ldReg x y s, executed_setV rfl (.inr rfl)⟩
  | orReg x y => exact .inr ⟨_, exec_orReg x y s, executed_setV rfl (.inr rfl)⟩
  | andReg x y => exact .inr ⟨_, exec_andReg x y s, executed_setV rfl (.inr rfl)⟩
  | xorReg x y => exact .inr ⟨_, exec_xorReg x y s, executed_setV rfl (.inr rfl)⟩
  | addReg x y => exact .inr ⟨_, exec_addReg x y s, executed_setResultAndFlag rfl fun _ => .inr⟩
  | subReg x y => exact .inr ⟨_, exec_subReg x y s, executed_setResultAndFlag rfl fun _ => .inr⟩
  | shr x y => exact .inr ⟨_, exec_shr x y s, executed_setResultAndFlag rfl fun _ => .inr⟩
  | subnReg x y => exact .inr ⟨_, exec_subnReg x y s, executed_setResultAndFlag rfl fun _ => .inr⟩
  | shl x y => exact .inr ⟨_, exec_shl x y s, executed_setResultAndFlag rfl fun _ => .inr⟩
  | ldI nnn => exact .inr ⟨_, exec_ldI s nnn, executed_setI rfl (.inr rfl)⟩
  | jpV0 nnn => exact .inr ⟨_, exec_jpV0 s nnn, executed_setPc (offsetTarget_toNat nnn _)⟩
  | rnd x kk =>
    have hframe := onlyWrites_rnd x ((rngDraw s).1 &&& kk) s
    exact .inr ⟨_, exec_rnd x s kk, executed_next rfl (onlyWrites_mono (fun _ => .inr) hframe) rfl rfl rfl id⟩
  | drw x y n =>
    by_cases h : dataInRange s n.toNat = true
    · exact .inr ⟨_, exec_drw_of_inRange h, executed_drw x y n s⟩
    · exact .inl ⟨_, rfl, exec_drw_of_outOfRange h⟩
  | skp x =>
    by_cases h : (getV s x).toNat < 16
    · exact .inr ⟨_, exec_skp_of_key (toNat_eq_toNat_setWidth h), executed_skipIf rfl⟩
    · exact .inl ⟨_, rfl, exec_skp_of_no_key (by omega)⟩
  | sknp x =>
    by_cases h : (getV s x).toNat < 16
    · exact .inr ⟨_, exec_sknp_of_key (toNat_eq_toNat_setWidth h), executed_skipIf (by simp [pcAfter])⟩
    · exact .inl ⟨_, rfl, exec_sknp_of_no_key (by omega)⟩
  | ldVxDt x => exact .inr ⟨_, exec_ldVxDt x s, executed_setV rfl (.inr rfl)⟩
  | ldVxK x =>
    have hframe := onlyWrites_setKeyWait (some x) s
    exact .inr ⟨_, exec_ldVxK x s, executed_next rfl (onlyWrites_mono (fun _ => .inr) hframe) rfl rfl rfl id⟩
  | ldDtVx x =>
    have hframe := onlyWrites_setDt (getV s x) s
    exact .inr ⟨_, exec_ldDtVx x s, executed_next rfl (onlyWrites_mono (fun _ => .inr) hframe) rfl rfl rfl id⟩
  | ldStVx x =>
    have hframe := onlyWrites_setSt (getV s x) s
    exact .inr ⟨_, exec_ldStVx x s, executed_next rfl (onlyWrites_mono (fun _ => .inr) hframe) rfl rfl rfl id⟩
  | addI x => exact .inr ⟨_, exec_addI x s, executed_setI rfl (.inr rfl)⟩
  | ldF x => exact .inr ⟨_, exec_ldF s x, executed_setI rfl (.inr rfl)⟩
  | ldB x =>
    by_cases h : effAddr s 2 < 4096
    · have hframe := onlyWrites_storeBytes_bcdDigits h (getV s x)
      exact .inr ⟨_, exec_ldB_of_lt h, executed_storeBytes rfl (onlyWrites_mono (fun _ h => .inr (.inl h)) hframe)⟩
    · exact .inl ⟨_, rfl, exec_ldB_of_ge (by omega)⟩
  | storeRegs x =>
    by_cases h : effAddr s x.toNat < 4096
    · have hframe := onlyWrites_storeBytes_regsUpTo h
      exact .inr ⟨_, exec_storeRegs_of_lt h, executed_storeBytes rfl (onlyWrites_mono (fun _ h => .inr (.inl h)) hframe)⟩
    · exact .inl ⟨_, rfl, exec_storeRegs_of_ge (by omega)⟩
  | loadRegs x =>
    by_cases h : effAddr s x.toNat < 4096
    · have hframe := onlyWrites_loadUpTo x s
      exact .inr ⟨_, exec_loadRegs_of_lt h,
        executed_next rfl (onlyWrites_mono (fun _ h => .inr (.inl h)) hframe) (loadUpTo_fault s x) (loadUpTo_pc s x)
          (loadUpTo_stack s x) (by simp)⟩
    · exact .inl ⟨_, rfl, exec_loadRegs_of_ge (by omega)⟩

end Sys2Proof
end

section
/-! PROOFS. The step cycle (40_step_cycle): the step of each phase, and what a step that answers has done. -/

namespace Sys2Proof
open Sys2Proof.Machine

/-! ### The step of each phase -/

section
variable {s : State}

theorem step_of_halted {r : FaultRecord} (hfault : s.fault = some r) : step s = .next s := by
  simp [step, beginStep, hfault]

theorem beginStep_of_no_wait (hfault : s.fault = none) (hwait : s.keyWait = none) :
    beginStep s = fetchDecode (timerTick s) := by
  simp [beginStep, hfault, hwait]

theorem step_of_stalled (hfault : s.fault = none) (hwait : s.keyWait = none) (hpc : 4096 ≤ s.pc.toNat) :
    step s = .next (timerTick s) := by
  simp [step, beginStep_of_no_wait hfault hwait, fetchDecode, hpc]

theorem step_of_last_byte (hfault : s.fault = none) (hwait : s.keyWait = none) (hpc : s.pc.toNat = 0xFFF) :
    step s = .next (raiseFault .fetchOutOfBounds none none (timerTick s)) := by
  simp [step, beginStep_of_no_wait hfault hwait, fetchDecode, hpc]

/-- `step_cases`, of the state a step answers. -/
theorem step_eq_next {t : State} (h : step s = .next t) :
    (∃ r, s.fault = some r ∧ t = s) ∨
    (s.fault = none ∧ ∃ r, s.keyWait = some r ∧ t = keyWaitStep r s) ∨
    (s.fault = none ∧ s.keyWait = none ∧ 4096 ≤ s.pc.toNat ∧ t = timerTick s) ∨
    (s.fault = none ∧ s.keyWait = none ∧ s.pc.toNat = 0xFFF ∧ t = raiseFault .fetchOutOfBounds none none (timerTick s)) ∨
    (Fetches s ∧ ∃ why, decodeWord (fetchWord s) = .illegal why ∧
      t = raiseFault .decodeError (some (fetchWord s)) none (timerTick s)) ∨
    (Fetches s ∧ ∃ i, decodeWord (fetchWord s) = .instr i ∧ exec i (timerTick s) = .next t) := by
  have hcases := step_cases s
  simpa only [h, Host.Outcome.next.injEq, eq_comm (b := exec _ _)] using hcases

end

/-- A fault of the step cycle itself comes after the tick, and writes the record beside the two timers. -/
theorem onlyWrites_raiseFault_timerTick (kind : Fault) (word : Option Word) (s : State) :
    OnlyWrites (fun p => p = .dt ∨ p = .st ∨ p = .fault) s (raiseFault kind word none (timerTick s)) :=
  onlyWrites_trans (onlyWrites_mono (fun _ => Or.imp_right .inl) (onlyWrites_timerTick s))
    (onlyWrites_mono (fun _ hp => .inr (.inr hp)) (onlyWrites_raiseFault kind word none _))

/-! ### The obligations -/

/-- Settles O21: the first phase of the step answers the halted state itself (40_step_cycle R101). -/
theorem haltedStepChangesNothingAndReturnsTheRecord : Obligations.HaltedStepChangesNothingAndReturnsTheRecord :=
  fun s _ hfault => ⟨s, step_of_halted hfault, rfl, hfault⟩

/-- Settles O23: past memory the step is the tick alone (40_step_cycle R104). -/
theorem stallTicksTheTimersOnly : Obligations.StallTicksTheTimersOnly := fun s hfault hwait hpc =>
  ⟨_, step_of_stalled hfault hwait hpc, countDown_toNat s.dt, countDown_toNat s.st, hfault, onlyWrites_timerTick s⟩

/-- Settles O24: at the last byte of memory the step is the tick and the fetch fault (40_step_cycle R105). -/
theorem fetchAtTheLastByteFaults : Obligations.FetchAtTheLastByteFaults := by
  intro s hfault hwait hpc
  have hpcEq : s.pc = 0xFFF := BitVec.eq_of_toNat_eq hpc
  exact ⟨_, step_of_last_byte hfault hwait hpc, by simp [hpcEq], countDown_toNat s.dt, countDown_toNat s.st,
    onlyWrites_raiseFault_timerTick _ _ s⟩

/-- Settles O25: the decoding of the fetched word decides between the decode fault and the execution, both after the tick
(40_step_cycle R106). -/
theorem illegalWordRaisesDecodeError : Obligations.IllegalWordRaisesDecodeError := fun s hs =>
  ⟨fun _ hword => ⟨_, step_of_illegal hs hword, rfl, countDown_toNat s.dt, countDown_toNat s.st,
    onlyWrites_raiseFault_timerTick _ _ s⟩, fun _ => step_of_instr hs⟩

/-- Settles O18: the decoder's two bytes are those `fetchWord` combines. -/
theorem stepRunsTheDecodedInstruction : Obligations.StepRunsTheDecodedInstruction :=
  fun _ _ hs _ hbytes => step_of_instr hs (congrArg Prod.fst hbytes)

end Sys2Proof
end

section
/-! PROOFS. Placing a word (log entry 5): the placed word is what the next step fetches. -/

namespace Sys2Proof
open Sys2Proof.Machine

theorem decodeTableWord_eq_some {nbits w : Nat} {i : Instr} (h : decodeTableWord nbits w = some i) :
    decodeWord (tableWord nbits w) = .instr i := by
  have hbytes := decodeBytes_bytesOfWord (tableWord nbits w) []
  rw [List.append_nil] at hbytes
  rw [decodeTableWord, hbytes] at h
  split at h
  next hword =>
    cases h
    exact hword
  next => cases h

section
variable (w : Word) (s : State)

theorem placeWord_pc_le : (placeWord w s).pc.toNat ≤ 0xFFE := by
  simp only [placeWord]
  split
  · assumption
  · decide

/-- What `placeWord` clears is what keeps a step from fetching. -/
theorem fetches_placeWord : Fetches (placeWord w s) := ⟨rfl, rfl, placeWord_pc_le w s⟩

theorem readByte_placeWord (a : Nat) :
    readByte (placeWord w s) a = readByte (storeBytes (placeWord w s).pc.toNat (bytesOfWord w) s) a := rfl

theorem fetchWord_placeWord : fetchWord (placeWord w s) = w := by
  have hpc := placeWord_pc_le w s
  have hlength : (bytesOfWord w).length = 2 := rfl
  have hread := readByte_storeBytes s (placeWord w s).pc.toNat (bytesOfWord w) (by omega)
  rw [fetchWord, readByte_placeWord, readByte_placeWord, hread, hread]
  simp [bytesOfWord]

end

/-- Settles O19: the placed state fetches, and what it fetches is the placed word. -/
theorem placedWordIsTheNextInstructionRun : Obligations.PlacedWordIsTheNextInstructionRun := by
  intro s w i h
  have hword := fetchWord_placeWord (tableWord 16 w) s
  exact step_of_instr (fetches_placeWord _ s) (hword.symm ▸ decodeTableWord_eq_some h)

end Sys2Proof
end

section
/-! PROOFS. Whole-machine rules (40_step_cycle, 10_state section 10): a step always answers, pc, precise faults, and the
writer table. -/

namespace Sys2Proof
open Sys2Proof.Machine

/-! ### What an instruction that answers has done -/

section
variable {i : Instr} {s t : State}

theorem exec_eq_next (h : exec i s = .next t) :
    (∃ kind, ownFault i = some kind ∧ t = faulted i kind s) ∨ Executed i s t := by
  rcases exec_cases i s with ⟨kind, hkind, hexec⟩ | ⟨u, hexec, hu⟩
  · exact .inl ⟨kind, hkind, by cases hexec.symm.trans h; rfl⟩
  · exact .inr (by cases hexec.symm.trans h; exact hu)

theorem onlyWrites_faulted (i : Instr) (kind : Fault) (s : State) : OnlyWrites (· = .fault) s (faulted i kind s) :=
  onlyWrites_raiseFault _ _ _ s

/-- `fault` is in the row of every instruction that has a fault of its own (10_state R38, 60_exceptions R240). -/
theorem mayWrite_fault {kind : Fault} (h : ownFault i = some kind) : mayWrite i s .fault := by
  cases i with
  | ret => exact .inr (.inr rfl)
  | call _ => exact .inr (.inr (.inr rfl))
  | drw _ _ _ => exact .inr (.inr (.inr (.inr rfl)))
  | skp _ | sknp _ => exact .inr rfl
  | ldB _ | storeRegs _ | loadRegs _ => exact .inr (.inr rfl)
  | sys _ | cls | jp _ | jpV0 _ | seImm _ _ | sneImm _ _ | seReg _ _ | sneReg _ _ | ldImm _ _ | addImm _ _ | ldReg _ _
  | orReg _ _ | andReg _ _ | xorReg _ _ | addReg _ _ | subReg _ _ | shr _ _ | subnReg _ _ | shl _ _ | rnd _ _ | ldI _
  | addI _ | ldF _ | ldVxDt _ | ldVxK _ | ldDtVx _ | ldStVx _ => cases h

theorem onlyWrites_exec (h : exec i s = .next t) : OnlyWrites (mayWrite i s) s t := by
  rcases exec_eq_next h with ⟨kind, hkind, rfl⟩ | hexec
  · exact onlyWrites_mono (by rintro _ rfl; exact mayWrite_fault hkind) (onlyWrites_faulted i kind s)
  · exact hexec.frame

end

/-! ### The obligations -/

/-- Settles O10: no phase of the step cycle stops the machine, and an instruction that faults answers the state with its
record (log entry 3). -/
theorem everyStepAnswersANextState : Obligations.EveryStepAnswersANextState := by
  intro s
  rcases step_cases s with
    ⟨_, -, hstep⟩ | ⟨-, _, -, hstep⟩ | ⟨-, -, -, hstep⟩ | ⟨-, -, -, hstep⟩ | ⟨-, _, -, hstep⟩ | ⟨-, i, -, hstep⟩
  · exact ⟨_, hstep⟩
  · exact ⟨_, hstep⟩
  · exact ⟨_, hstep⟩
  · exact ⟨_, hstep⟩
  · exact ⟨_, hstep⟩
  · rcases exec_cases i (timerTick s) with ⟨_, -, hexec⟩ | ⟨_, hexec, -⟩
    · exact ⟨_, hstep.trans hexec⟩
    · exact ⟨_, hstep.trans hexec⟩

/-- Settles O11: an instruction that executes leaves `pcAfter`, and one that faults only writes the record, so pc stays. -/
theorem everyInstructionLeavesPcAsItsRuleSays : Obligations.EveryInstructionLeavesPcAsItsRuleSays := by
  refine ⟨fun s i => step_of_instr, fun i s t hs h => ?_⟩
  rcases exec_eq_next h with ⟨kind, -, rfl⟩ | hexec
  · exact ⟨fun hnone => by simp [faulted] at hnone, fun _ => rfl⟩
  · exact ⟨fun _ => hexec.pc_eq, fun hne => absurd (hexec.fault_eq.trans hs) hne⟩

/-- Settles O12: an instruction that executes leaves the fault register none, so a set register is its own fault. -/
theorem everyInstructionFaultIsPrecise : Obligations.EveryInstructionFaultIsPrecise := by
  intro i s t hs h hne
  rcases exec_eq_next h with ⟨kind, hkind, rfl⟩ | hexec
  · exact ⟨kind, hkind, rfl⟩
  · exact absurd (hexec.fault_eq.trans hs) hne

/-- Settles O13: an execution stays in its row of the writer table, and a fault writes `fault`, which is in the row of
every instruction that can raise one. -/
theorem everyInstructionWritesOnlyItsTableRow : Obligations.EveryInstructionWritesOnlyItsTableRow :=
  fun _ _ _ => onlyWrites_exec

end Sys2Proof
end

section
/-! PROOFS. The invariant (10_state R24, R35): reset gives it, and every step and every host operation keep it. -/

namespace Sys2Proof
open Sys2Proof.Machine

/-! ### The parts the invariant reads -/

section
variable {s t : State}

/-- The invariant speaks of memory, pc, the stack and the fault record only. -/
theorem inv_congr (hs : Inv s) (hmem : t.mem = s.mem) (hpc : t.pc = s.pc) (hstack : t.stack = s.stack)
    (hfault : t.fault = s.fault) : Inv t where
  mem_wf := hmem ▸ hs.mem_wf
  pc_le := hpc ▸ hs.pc_le
  stack_le := hstack ▸ hs.stack_le
  fault_ok := by
    rw [hfault, hpc]
    exact hs.fault_ok

theorem inv_timerTick (hs : Inv s) : Inv (timerTick s) := inv_congr hs rfl rfl rfl rfl

theorem inv_keyWaitStep (r : RegIdx) (hs : Inv s) : Inv (keyWaitStep r s) := by
  rcases hlatch : s.latch with _ | k
  · rwa [keyWaitStep_none r hlatch]
  · rw [keyWaitStep_some r hlatch]
    exact inv_congr hs rfl rfl rfl rfl

/-- A fault keeps the invariant when its record, which holds the pc of the state, has the shape of R35. -/
theorem inv_raiseFault {kind : Fault} {word : Option Word} {addr : Option Nat} (hs : Inv s)
    (hshape : FaultRecord.Shaped ⟨kind, s.pc, word, addr⟩) : Inv (raiseFault kind word addr s) where
  mem_wf := hs.mem_wf
  pc_le := hs.pc_le
  stack_le := hs.stack_le
  fault_ok := by
    rintro r hr
    cases hr
    exact ⟨hshape, rfl⟩

end

/-! ### The shapes of the fault records (60_exceptions R231 to R236) -/

theorem shaped_fetchOutOfBounds {pc : Word} (h : pc.toNat ≤ 0xFFF) : FaultRecord.Shaped ⟨.fetchOutOfBounds, pc, none, none⟩ := by
  simp [FaultRecord.Shaped, h]

theorem shaped_decodeError {pc : Word} (w : Word) (h : pc.toNat ≤ 0xFFF) :
    FaultRecord.Shaped ⟨.decodeError, pc, some w, none⟩ := by
  simp [FaultRecord.Shaped, h]

theorem firstBadAddr_bounds (s : State) : 4096 ≤ firstBadAddr s ∧ firstBadAddr s ≤ 0xFFFF := by
  have := s.i.isLt
  unfold firstBadAddr
  omega

/-- The fetch fault is the step cycle's, no instruction's own (60_exceptions R234). -/
theorem ownFault_ne_fetchOutOfBounds {i : Instr} {kind : Fault} (h : ownFault i = some kind) : kind ≠ .fetchOutOfBounds := by
  rintro rfl
  cases i <;> cases h

theorem shaped_ownFault {i : Instr} {kind : Fault} (s : State) (hkind : ownFault i = some kind) (hpc : s.pc.toNat ≤ 0xFFF) :
    FaultRecord.Shaped ⟨kind, s.pc, some (encode i),
      if kind = .memoryOutOfBounds then some (firstBadAddr s) else none⟩ := by
  have hfetch := ownFault_ne_fetchOutOfBounds hkind
  have haddr := firstBadAddr_bounds s
  refine ⟨by simp [hfetch], fun hne => if_neg hne, fun heq => ⟨firstBadAddr s, if_pos heq, haddr⟩, hpc⟩

/-! ### A step -/

/-- A fetched instruction jumps to at most 0xFFF + 0xFF, returns to at most 0x1000, and else moves by at most 4 (10_state R24). -/
theorem pcAfter_le {s : State} (i : Instr) (hs : Inv s) (hpc : s.pc.toNat ≤ 0xFFE) : pcAfter i s ≤ 0x10FE := by
  have hnext : (s.pc + 2).toNat ≤ 0x10FE := by bv_omega
  have hskip : (s.pc + 4).toNat ≤ 0x10FE := by bv_omega
  cases i with
  | jp nnn | call nnn => simp only [pcAfter]; omega
  | jpV0 nnn => simp only [pcAfter]; omega
  | ret =>
    have hentry := hs.stack_le ⟨s.sp.val - 1, by omega⟩
    exact hentry.trans (by decide)
  | seImm _ _ | sneImm _ _ | seReg _ _ | sneReg _ _ | skp _ | sknp _ =>
    simp only [pcAfter]
    split
    · exact hskip
    · exact hnext
  | sys _ | cls | ldImm _ _ | addImm _ _ | ldReg _ _ | orReg _ _ | andReg _ _ | xorReg _ _ | addReg _ _ | subReg _ _
  | shr _ _ | subnReg _ _ | shl _ _ | rnd _ _ | drw _ _ _ | ldI _ | addI _ | ldF _ | ldVxDt _ | ldVxK _ | ldDtVx _
  | ldStVx _ | ldB _ | storeRegs _ | loadRegs _ => exact hnext

theorem inv_executed {i : Instr} {s t : State} (hs : Inv s) (hfault : s.fault = none) (hpc : s.pc.toNat ≤ 0xFFE)
    (h : Executed i s t) : Inv t where
  mem_wf := h.mem_wf hs.mem_wf
  pc_le := h.pc_eq ▸ pcAfter_le i hs hpc
  stack_le j := by
    rcases h.stack_eq j with hj | hj
    · exact hj ▸ hs.stack_le j
    · rw [hj]
      bv_omega
  fault_ok r hr := by simp [h.fault_eq, hfault] at hr

theorem inv_exec {i : Instr} {s t : State} (hs : Inv s) (hfault : s.fault = none) (hpc : s.pc.toNat ≤ 0xFFE)
    (h : exec i s = .next t) : Inv t := by
  rcases exec_eq_next h with ⟨kind, hkind, rfl⟩ | hexec
  · exact inv_raiseFault hs (shaped_ownFault s hkind (by omega))
  · exact inv_executed hs hfault hpc hexec

/-- Settles O8: phase by phase of the step cycle. Only a fetched instruction moves pc or pushes, so pc is at most 0xFFE
before it does. -/
theorem everyStepKeepsTheInvariant : Obligations.EveryStepKeepsTheInvariant := by
  intro s t hs h
  rcases step_eq_next h with ⟨_, -, rfl⟩ | ⟨-, r, -, rfl⟩ | ⟨-, -, -, rfl⟩ | ⟨-, -, hpc, rfl⟩ |
    ⟨⟨-, -, hpc⟩, _, -, rfl⟩ | ⟨⟨hfault, -, hpc⟩, i, -, hexec⟩
  · exact hs
  · exact inv_keyWaitStep r hs
  · exact inv_timerTick hs
  · exact inv_raiseFault (inv_timerTick hs) (shaped_fetchOutOfBounds hpc.le)
  · exact inv_raiseFault (inv_timerTick hs) (shaped_decodeError _ (hpc.trans (by decide)))
  · exact inv_exec (inv_timerTick hs) hfault hpc hexec

/-! ### Reset and the host operations -/

theorem inv_resetImage (image : List Byte) : Inv (resetImage image) where
  mem_wf := wf_memWriteBytes wf_reset_mem _ _
  pc_le := by simp
  stack_le := by simp [resetImage, State.reset]
  fault_ok r hr := by simp at hr

/-- Settles O7: State.reset lists no memory cell, has pc 0x200, a stack of zeros and no fault record. -/
theorem resetStateMeetsTheInvariant : Obligations.ResetStateMeetsTheInvariant :=
  inv_congr (inv_resetImage []) rfl rfl rfl rfl

theorem inv_hostOp {op : HostOp} {s t : State} (hs : Inv s) (h : hostOp op s = .next t) : Inv t := by
  rcases hostOp_cases h with ⟨image, -, rfl⟩ | ⟨-, hstep⟩ | ⟨k, p, -, hkey⟩ | ⟨-, rfl⟩ | ⟨-, rfl⟩ | ⟨-, rfl⟩ | ⟨-, rfl⟩
  · exact inv_congr (inv_resetImage image) rfl rfl rfl rfl
  · exact everyStepKeepsTheInvariant s t hs hstep
  · obtain ⟨hk, rfl⟩ := keyEvent_cases hkey
    exact inv_congr hs rfl rfl rfl rfl
  · exact inv_timerTick hs
  · exact inv_congr hs rfl rfl rfl rfl
  · exact hs
  · exact hs

/-- Settles O9: apart from reset and step a host operation reaches nothing the invariant reads, and the reachable states
are those of an induction over the operations. -/
theorem everyHostOperationKeepsTheInvariant : Obligations.EveryHostOperationKeepsTheInvariant := by
  refine ⟨fun _ _ _ => inv_hostOp, inv_resetImage, fun s hreach => ?_⟩
  induction hreach with
  | reset image => exact inv_resetImage image
  | op o _ ho ih => exact inv_hostOp ih ho

end Sys2Proof
end

section
/-! PROOFS. Reset (10_state section 9): every item after reset with an image. -/

namespace Sys2Proof
open Sys2Proof.Machine

section
variable (image : List Byte)

/-- Memory after reset: the cut image from 0x200 on, every other address at its reset byte (70_reset R280, R281). -/
theorem readByte_resetImage (a : Nat) : readByte (resetImage image) a =
    if h : 0x200 ≤ a ∧ a - 0x200 < (image.take 3584).length then (image.take 3584)[a - 0x200] else resetByte a := by
  have hlength := List.length_take_le 3584 image
  exact memRead_memWriteBytes State.reset.mem 0x200 (image.take 3584) (by omega) a

theorem readByte_resetImage_of_lt {a : Nat} (h : a < 0x200) : readByte (resetImage image) a = resetByte a := by
  rw [readByte_resetImage, dif_neg (by omega)]

/-- Up to the end of memory the cut of the image is not felt. -/
theorem readByte_resetImage_of_ge {a : Nat} (h : 0x200 ≤ a) (ha : a < 4096) :
    readByte (resetImage image) a = image.getD (a - 0x200) 0 := by
  rw [readByte_resetImage]
  by_cases hin : a - 0x200 < image.length
  · have htake : a - 0x200 < (image.take 3584).length := by
      rw [List.length_take]
      omega
    rw [dif_pos ⟨h, htake⟩, List.getElem_take, List.getD_eq_getElem _ _ hin]
  · have htake : ¬ a - 0x200 < (image.take 3584).length := by
      rw [List.length_take]
      omega
    rw [dif_neg fun hand => htake hand.2, resetByte_of_le (by omega), List.getD_eq_default _ _ (by omega)]

theorem getV_resetImage (r : RegIdx) : getV (resetImage image) r = 0 := by
  simp [getV, resetImage, State.reset]

theorem stack_resetImage (j : Fin 16) : (resetImage image).stack[j.val] = 0 := by
  simp [resetImage, State.reset]

theorem keyPressed_resetImage (k : KeyIdx) : keyPressed (resetImage image) k = false := by
  simp [keyPressed, resetImage, State.reset]

theorem fbGet_resetImage (x y : Nat) : fbGet (resetImage image) x y = false := by
  simp [fbGet, resetImage, State.reset]

end

/-- Settles O5: memory is the font, zeros and the image's bytes with zeros after them; every other item is the one
State.reset writes. -/
theorem resetLeavesEveryItemAtItsResetValue : Obligations.ResetLeavesEveryItemAtItsResetValue := by
  intro image
  refine ⟨getV_resetImage image, rfl, rfl, rfl, stack_resetImage image, rfl, rfl, keyPressed_resetImage image, rfl, rfl,
    fbGet_resetImage image, rfl, rfl, fun a ha => ?font, fun a hlow hhigh => ?zeros,
    fun _ => readByte_resetImage_of_ge image⟩
  case font =>
    rw [readByte_resetImage_of_lt image (by omega)]
    exact dif_pos ha
  case zeros => rw [readByte_resetImage_of_lt image hhigh, resetByte_of_le hlow]

end Sys2Proof
end

section
/-! PROOFS. key_wait and the latch (10_state R30, R31): who writes them, in a step and between two steps. -/

namespace Sys2Proof
open Sys2Proof.Machine

/-! ### In an instruction: the rows of the writer table -/

theorem not_mayWrite_latch (i : Instr) (s : State) : ¬ mayWrite i s .latch := by
  cases i <;> simp [mayWrite, AtIndex]

theorem mayWrite_keyWait {i : Instr} {s : State} (h : mayWrite i s .keyWait) : ∃ x, i = .ldVxK x := by
  cases i with
  | ldVxK x => exact ⟨x, rfl⟩
  | _ => simp [mayWrite, AtIndex] at h

section
variable {i : Instr} {s t : State}

theorem exec_latch (h : exec i s = .next t) : t.latch = s.latch :=
  onlyWrites_exec h .latch (not_mayWrite_latch i s)

theorem exec_keyWait (h : exec i s = .next t) : t.keyWait = s.keyWait ∨ ∃ x, i = .ldVxK x ∧ t.keyWait = some x := by
  by_cases hrow : mayWrite i s .keyWait
  · obtain ⟨x, rfl⟩ := mayWrite_keyWait hrow
    cases (exec_ldVxK x s).symm.trans h
    exact .inr ⟨x, rfl, by simp⟩
  · exact .inl (onlyWrites_exec h .keyWait hrow)

end

/-! ### In a step -/

section
variable {s t : State}

/-- The resolution consumes a latched key and ends the wait, or changes nothing (40_step_cycle R102). -/
theorem keyWaitStep_eq_or (r : RegIdx) (s : State) :
    keyWaitStep r s = s ∨ s.latch ≠ none ∧ (keyWaitStep r s).keyWait = none ∧ (keyWaitStep r s).latch = none := by
  rcases hlatch : s.latch with _ | k
  · exact .inl (keyWaitStep_none r hlatch)
  · exact .inr (by simp [keyWaitStep_some r hlatch])

theorem step_keyWait (h : step s = .next t) : t.keyWait = s.keyWait ∨
    (∃ x, Fetches s ∧ decodeWord (fetchWord s) = .instr (.ldVxK x) ∧ t.keyWait = some x) ∨
    (s.keyWait ≠ none ∧ s.latch ≠ none ∧ t.keyWait = none ∧ t.latch = none) := by
  rcases step_eq_next h with ⟨_, -, rfl⟩ | ⟨-, r, hwait, rfl⟩ | ⟨-, -, -, rfl⟩ | ⟨-, -, -, rfl⟩ | ⟨-, _, -, rfl⟩ |
    ⟨hs, i, hword, hexec⟩
  · exact .inl rfl
  · rcases keyWaitStep_eq_or r s with hsame | ⟨hlatch, hresolved⟩
    · exact .inl (congrArg State.keyWait hsame)
    · exact .inr (.inr ⟨by simp [hwait], hlatch, hresolved⟩)
  · exact .inl rfl
  · exact .inl rfl
  · exact .inl rfl
  · rcases exec_keyWait hexec with hsame | ⟨x, rfl, hx⟩
    · exact .inl hsame
    · exact .inr (.inl ⟨x, hs, hword, hx⟩)

theorem step_latch (h : step s = .next t) :
    t.latch = s.latch ∨ (s.fault = none ∧ s.keyWait ≠ none ∧ t.latch = none) := by
  rcases step_eq_next h with ⟨_, -, rfl⟩ | ⟨hfault, r, hwait, rfl⟩ | ⟨-, -, -, rfl⟩ | ⟨-, -, -, rfl⟩ | ⟨-, _, -, rfl⟩ |
    ⟨-, i, -, hexec⟩
  · exact .inl rfl
  · rcases keyWaitStep_eq_or r s with hsame | ⟨-, -, hlatch⟩
    · exact .inl (congrArg State.latch hsame)
    · exact .inr ⟨hfault, by simp [hwait], hlatch⟩
  · exact .inl rfl
  · exact .inl rfl
  · exact .inl rfl
  · exact .inl (exec_latch (s := timerTick s) hexec)

/-! ### Between two steps -/

/-- A key event writes the latch only when it releases a pressed key (60_exceptions R252, D16). -/
theorem keyEvent_latch {k : Nat} {p : Bool} (h : keyEvent k p s = .next t) :
    t.latch = s.latch ∨ ∃ j : KeyIdx, k = j.toNat ∧ p = false ∧ keyPressed s j = true ∧ t.latch = some j := by
  obtain ⟨hk, rfl⟩ := keyEvent_cases h
  by_cases hrelease : p = false ∧ s.pressed[k] = true
  · obtain ⟨rfl, hpressed⟩ := hrelease
    have hindex : (BitVec.ofNat 4 k).toNat = k := Nat.mod_eq_of_lt hk
    refine .inr ⟨BitVec.ofNat 4 k, hindex.symm, rfl, ?_, by simp [hpressed]⟩
    simpa only [keyPressed, hindex] using hpressed
  · refine .inl (if_neg ?_)
    simpa using hrelease

theorem hostOp_keyWait {op : HostOp} (hop : op ≠ .step) (h : hostOp op s = .next t) :
    t.keyWait = s.keyWait ∨ ∃ image, op = .reset image := by
  rcases hostOp_cases h with ⟨image, rfl, -⟩ | ⟨rfl, -⟩ | ⟨k, p, -, hkey⟩ | ⟨-, rfl⟩ | ⟨-, rfl⟩ | ⟨-, rfl⟩ | ⟨-, rfl⟩
  · exact .inr ⟨image, rfl⟩
  · exact absurd rfl hop
  · obtain ⟨_, rfl⟩ := keyEvent_cases hkey
    exact .inl rfl
  · exact .inl rfl
  · exact .inl rfl
  · exact .inl rfl
  · exact .inl rfl

theorem hostOp_latch {op : HostOp} (hop : op ≠ .step) (h : hostOp op s = .next t) : t.latch = s.latch ∨
    (∃ image, op = .reset image) ∨
    ∃ k : KeyIdx, op = .keyEvent k.toNat false ∧ keyPressed s k = true ∧ t.latch = some k := by
  rcases hostOp_cases h with ⟨image, rfl, -⟩ | ⟨rfl, -⟩ | ⟨k, p, rfl, hkey⟩ | ⟨-, rfl⟩ | ⟨-, rfl⟩ | ⟨-, rfl⟩ | ⟨-, rfl⟩
  · exact .inr (.inl ⟨image, rfl⟩)
  · exact absurd rfl hop
  · rcases keyEvent_latch hkey with hsame | ⟨j, rfl, rfl, hpressed, hlatch⟩
    · exact .inl hsame
    · exact .inr (.inr ⟨j, rfl, hpressed, hlatch⟩)
  · exact .inl rfl
  · exact .inl rfl
  · exact .inl rfl
  · exact .inl rfl

end

/-- Settles O15: in a step the writer table leaves key_wait to LD Vx, K and the latch to no instruction, and the other
phases leave both but for the key-wait resolution; between steps each host operation is looked at. -/
theorem keyWaitAndLatchHaveTheirNamedWritersOnly : Obligations.KeyWaitAndLatchHaveTheirNamedWritersOnly :=
  ⟨fun _ _ h => ⟨(step_keyWait h).resolve_left, (step_latch h).resolve_left⟩,
    fun _ _ _ hop h => ⟨(hostOp_keyWait hop h).resolve_left, (hostOp_latch hop h).resolve_left⟩⟩

end Sys2Proof
end

section
/-! PROOFS. The sound timer and the dirty flag (10_state R28, R33): no step reads them. -/

namespace Sys2Proof
open Sys2Proof.Machine

/-- The state with another sound timer and another dirty flag. -/
def withSoundAndDirty (b : Byte) (d : Bool) (s : State) : State := { s with st := b, dirty := d }

theorem sameButSoundAndDirty_iff {s t : State} :
    SameButSoundAndDirty s t ↔ t = withSoundAndDirty t.st t.dirty s := by
  cases s
  cases t
  simp only [SameButSoundAndDirty, withSoundAndDirty, State.mk.injEq]
  tauto

section
variable (b : Byte) (d : Bool)

theorem sameButSoundAndDirty_withSoundAndDirty (s : State) : SameButSoundAndDirty s (withSoundAndDirty b d s) := rfl

/-! ### Drawing: the loop over rows and columns reads the framebuffer only -/

/-- What two runs of the drawing loop keep alike: the drawn states but for the two fields, and the collision found so far. -/
def SameDrawing (a c : State × Bool) : Prop := SameButSoundAndDirty a.1 c.1 ∧ a.2 = c.2

theorem sameDrawing_drawCol {byte : Byte} {cx y col : Nat} {a c : State × Bool} (h : SameDrawing a c) :
    SameDrawing (drawCol byte cx y a col) (drawCol byte cx y c col) := by
  obtain ⟨s, hit⟩ := a
  obtain ⟨t, hit'⟩ := c
  obtain ⟨hst, rfl : hit = hit'⟩ := h
  unfold drawCol
  split
  · rw [sameButSoundAndDirty_iff.1 hst]
    exact ⟨rfl, rfl⟩
  · exact ⟨hst, rfl⟩

theorem sameDrawing_drawRow {byte : Byte} {cx y : Nat} {a c : State × Bool} (h : SameDrawing a c) :
    SameDrawing (drawRow byte cx y a) (drawRow byte cx y c) :=
  List.foldl_rel h fun _ _ _ _ => sameDrawing_drawCol

theorem sameDrawing_drawn (x y : RegIdx) (n : Nibble) (s : State) :
    SameDrawing (drawn x y n s) (drawn x y n (withSoundAndDirty b d s)) :=
  List.foldl_rel ⟨sameButSoundAndDirty_withSoundAndDirty b d s, rfl⟩ fun _ _ _ _ => sameDrawing_drawRow

/-! ### An instruction and a step -/

/-- Both runs answer a next state, and the two states differ at most in the two fields. -/
def SameNext (o o' : Host.Outcome State Fault Refusal) : Prop :=
  ∃ t t', o = .next t ∧ o' = .next t' ∧ SameButSoundAndDirty t t'

theorem sameNext_next {t t' : State} (h : SameButSoundAndDirty t t') : SameNext (.next t) (.next t') :=
  ⟨t, t', rfl, rfl, h⟩

theorem sameNext_ite {c : Prop} [Decidable c] {o p o' p' : Host.Outcome State Fault Refusal} (h : SameNext o o')
    (k : SameNext p p') : SameNext (if c then o else p) (if c then o' else p') := by
  split
  · exact h
  · exact k

theorem sameNext_skipIf (c : Bool) (s : State) :
    SameNext (.next (skipIf c s)) (.next (skipIf c (withSoundAndDirty b d s))) := by
  cases c <;> exact sameNext_next rfl

theorem sameNext_drw (x y : RegIdx) (n : Nibble) (s : State) :
    SameNext (exec (.drw x y n) s) (exec (.drw x y n) (withSoundAndDirty b d s)) := by
  refine sameNext_ite (sameNext_next ?_) (sameNext_next rfl)
  obtain ⟨hstate, hhit⟩ := sameDrawing_drawn b d x y n s
  change SameButSoundAndDirty (afterDrw x y n s) (afterDrw x y n (withSoundAndDirty b d s))
  rw [afterDrw, afterDrw, sameButSoundAndDirty_iff.1 hstate, hhit]
  rfl

/-- An instruction takes the same branch in both states and makes the same writes, because it reads neither field. -/
theorem sameNext_exec (i : Instr) (s : State) : SameNext (exec i s) (exec i (withSoundAndDirty b d s)) := by
  cases i with
  | drw x y n => exact sameNext_drw b d x y n s
  | call nnn =>
    by_cases hsp : s.sp.val < 16
    · exact ⟨_, _, exec_call_of_lt nnn hsp, exec_call_of_lt (s := withSoundAndDirty b d s) nnn hsp, rfl⟩
    · have hfull : s.sp.val = 16 := by omega
      exact ⟨_, _, exec_call_of_full nnn hfull, exec_call_of_full (s := withSoundAndDirty b d s) nnn hfull, rfl⟩
  | ret =>
    by_cases hsp : s.sp.val = 0
    · exact ⟨_, _, exec_ret_of_zero hsp, exec_ret_of_zero (s := withSoundAndDirty b d s) hsp, rfl⟩
    · exact ⟨_, _, exec_ret_of_ne hsp, exec_ret_of_ne (s := withSoundAndDirty b d s) hsp, rfl⟩
  | skp x =>
    by_cases hkey : (getV s x).toNat < 16
    · have hindex := toNat_eq_toNat_setWidth hkey
      rw [exec_skp_of_key hindex, exec_skp_of_key (s := withSoundAndDirty b d s) hindex]
      exact sameNext_skipIf b d _ s
    · have hnone : 16 ≤ (getV s x).toNat := by omega
      exact ⟨_, _, exec_skp_of_no_key hnone, exec_skp_of_no_key (s := withSoundAndDirty b d s) hnone, rfl⟩
  | sknp x =>
    by_cases hkey : (getV s x).toNat < 16
    · have hindex := toNat_eq_toNat_setWidth hkey
      rw [exec_sknp_of_key hindex, exec_sknp_of_key (s := withSoundAndDirty b d s) hindex]
      exact sameNext_skipIf b d _ s
    · have hnone : 16 ≤ (getV s x).toNat := by omega
      exact ⟨_, _, exec_sknp_of_no_key hnone, exec_sknp_of_no_key (s := withSoundAndDirty b d s) hnone, rfl⟩
  | ldB _ | storeRegs _ | loadRegs _ => exact sameNext_ite (sameNext_next rfl) (sameNext_next rfl)
  | seImm _ _ | sneImm _ _ | seReg _ _ | sneReg _ _ => exact sameNext_skipIf b d _ s
  | sys _ | cls | jp _ | jpV0 _ | ldImm _ _ | addImm _ _ | ldReg _ _ | orReg _ _ | andReg _ _ | xorReg _ _
  | addReg _ _ | subReg _ _ | shr _ _ | subnReg _ _ | shl _ _ | rnd _ _ | ldI _ | addI _ | ldF _ | ldVxDt _
  | ldVxK _ | ldDtVx _ | ldStVx _ => exact sameNext_next rfl

theorem sameButSoundAndDirty_keyWaitStep (r : RegIdx) (s : State) :
    SameButSoundAndDirty (keyWaitStep r s) (keyWaitStep r (withSoundAndDirty b d s)) := by
  rcases hlatch : s.latch with _ | k
  · rw [keyWaitStep_none r hlatch, keyWaitStep_none (s := withSoundAndDirty b d s) r hlatch]
    rfl
  · rw [keyWaitStep_some r hlatch, keyWaitStep_some (s := withSoundAndDirty b d s) r hlatch]
    rfl

/-- Both states are in the same phase of the step cycle; the tick leaves them as they were but for the two fields. -/
theorem sameNext_step (s : State) : SameNext (step s) (step (withSoundAndDirty b d s)) := by
  rcases step_cases s with ⟨r, hfault, hstep⟩ | ⟨hfault, r, hwait, hstep⟩ | ⟨hfault, hwait, hpc, hstep⟩ |
    ⟨hfault, hwait, hpc, hstep⟩ | ⟨hs, why, hword, hstep⟩ | ⟨hs, i, hword, hstep⟩
  · exact ⟨_, _, hstep, step_of_halted (s := withSoundAndDirty b d s) hfault, rfl⟩
  · exact ⟨_, _, hstep, step_of_keyWait (s := withSoundAndDirty b d s) hfault hwait,
      sameButSoundAndDirty_keyWaitStep b d r s⟩
  · exact ⟨_, _, hstep, step_of_stalled (s := withSoundAndDirty b d s) hfault hwait hpc, rfl⟩
  · exact ⟨_, _, hstep, step_of_last_byte (s := withSoundAndDirty b d s) hfault hwait hpc, rfl⟩
  · exact ⟨_, _, hstep, step_of_illegal (s := withSoundAndDirty b d s) hs hword, rfl⟩
  · rw [hstep, step_of_instr (s := withSoundAndDirty b d s) hs hword]
    exact sameNext_exec (countDown b) d i (timerTick s)

end

/-- Settles O14: phase by phase and instruction by instruction the two runs do the same; RND takes the byte of the draw
count, which the two states share (log entry 2). -/
theorem noStepReadsSoundTimerOrDirtyFlag : Obligations.NoStepReadsSoundTimerOrDirtyFlag := by
  intro s t s' hst h
  obtain ⟨u, t', hu, ht', hsame⟩ := sameNext_step t.st t.dirty s
  rw [← sameButSoundAndDirty_iff.1 hst] at ht'
  cases hu.symm.trans h
  exact ⟨t', ht', hsame⟩

end Sys2Proof
end

section
/-! PROOFS. The host interface (60_exceptions section 7): the frame and the reply of each operation, the dirty flag, and what
only reset leaves. -/

namespace Sys2Proof
open Sys2Proof.Machine

/-! ### Key events -/

section
variable (k : KeyIdx) (p : Bool) (s : State)

/-- The state a key event with an index below 16 leaves (60_exceptions R252). -/
def withKeyEvent (k : KeyIdx) (p : Bool) (s : State) : State :=
  { s with
    pressed := s.pressed.set k.toNat p k.isLt
    latch := if p = false ∧ keyPressed s k = true then some k else s.latch }

theorem keyEvent_toNat : keyEvent k.toNat p s = .next (withKeyEvent k p s) := by
  rw [keyEvent, dif_pos k.isLt]
  cases p <;> simp [withKeyEvent, keyPressed]

theorem keyPressed_withKeyEvent : keyPressed (withKeyEvent k p s) k = p := by
  simp [keyPressed, withKeyEvent]

end

theorem keyEvent_of_ge {k : Nat} (p : Bool) (s : State) (hk : 16 ≤ k) : keyEvent k p s = .refused (.keyEventIndex k) :=
  dif_neg (by omega)

/-- Settles O57: below 16 the event is two writes, of the flag and, on a release transition, of the latch (60_exceptions
R252, D16); from 16 on it is refused (R260, D17). -/
theorem keyEventSetsTheFlagAndLatchesReleases : Obligations.KeyEventSetsTheFlagAndLatchesReleases := by
  refine ⟨fun k p s => ⟨_, keyEvent_toNat k p s, keyPressed_withKeyEvent k p s, rfl, ?frame⟩,
    fun _ p s => keyEvent_of_ge p s⟩
  case frame =>
    refine onlyWrites_mono (fun q hq => hq.imp_left ?_) (onlyWrites_keyEvent (keyEvent_toNat k p s))
    rintro ⟨j, hj, rfl⟩
    rw [BitVec.eq_of_toNat_eq hj]

/-! ### Frames and replies -/

theorem fbRead_eq (x : Fin 64) (y : Fin 32) (s : State) : fbRead x y s = s.fb[x.val][y.val] := by
  simp [fbRead, fbGet, Nat.mod_eq_of_lt]

/-- What the host can write without reset and step. -/
theorem onlyWrites_hostOp {op : HostOp} {s t : State} (hreset : ∀ image, op ≠ .reset image) (hop : op ≠ .step)
    (h : hostOp op s = .next t) :
    OnlyWrites (fun p => p = .dt ∨ p = .st ∨ (∃ k, p = .pressed k) ∨ p = .latch ∨ p = .dirty) s t := by
  rcases hostOp_cases h with ⟨image, rfl, -⟩ | ⟨rfl, -⟩ | ⟨k, p, -, hkey⟩ | ⟨-, rfl⟩ | ⟨-, rfl⟩ | ⟨-, rfl⟩ | ⟨-, rfl⟩
  · exact absurd rfl (hreset image)
  · exact absurd rfl hop
  · refine onlyWrites_mono ?_ (onlyWrites_keyEvent hkey)
    rintro q (⟨j, -, hq⟩ | hq)
    · exact .inr (.inr (.inl ⟨j, hq⟩))
    · exact .inr (.inr (.inr (.inl hq)))
  · exact onlyWrites_mono (fun _ => Or.imp_right .inl) (onlyWrites_timerTick s)
  · exact onlyWrites_mono (fun _ hq => .inr (.inr (.inr (.inr hq)))) (onlyWrites_consumeDirty s)
  · exact onlyWrites_refl _
  · exact onlyWrites_refl _

/-- Settles O58: each operation is one named port, whose frame and reply are looked up. -/
theorem everyHostOperationHasItsOwnFrameAndReply : Obligations.EveryHostOperationHasItsOwnFrameAndReply := by
  refine ⟨fun _ _ => ⟨_, rfl, rfl, rfl⟩, fun s => ?step, fun k p s hk => ?keyEvent, fun _ p s => keyEvent_of_ge p s,
    fun s => ⟨_, rfl, onlyWrites_timerTick s, rfl⟩, fun s => ⟨_, rfl, onlyWrites_consumeDirty s, rfl⟩,
    fun x y s => ⟨rfl, fbRead_eq x y s, congrArg Reply.pixel (fbRead_eq x y s)⟩, fun _ => ⟨rfl, rfl, rfl⟩,
    fun _ _ _ => onlyWrites_hostOp⟩
  case step =>
    obtain ⟨t, hstep⟩ := everyStepAnswersANextState s
    exact ⟨t, hstep, hstep, rfl⟩
  case keyEvent =>
    have hevent := keyEvent_toNat (BitVec.ofNat 4 k) p s
    rw [BitVec.toNat_ofNat, Nat.mod_eq_of_lt hk] at hevent
    exact ⟨_, hevent, onlyWrites_keyEvent hevent, rfl⟩

/-- Settles O59: a step keeps the flag, and the other ports but consume_dirty do not write it. -/
theorem onlyConsumeDirtyAndResetClearTheDirtyFlag : Obligations.OnlyConsumeDirtyAndResetClearTheDirtyFlag := by
  intro op s t hreset hconsume h hd
  rcases hostOp_cases h with ⟨image, rfl, -⟩ | ⟨-, hstep⟩ | ⟨k, p, -, hkey⟩ | ⟨-, rfl⟩ | ⟨rfl, -⟩ | ⟨-, rfl⟩ | ⟨-, rfl⟩
  · exact absurd rfl (hreset image)
  · exact step_keeps_dirty hstep hd
  · exact (onlyWrites_keyEvent hkey .dirty (by simp)).trans hd
  · exact hd
  · exact absurd rfl hconsume
  · exact hd
  · exact hd

/-! ### The halted state and the stall -/

/-- A property every host operation but reset keeps holds after any schedule without a reset. -/
theorem hostRun_keeps {P : State → Prop}
    (hkeeps : ∀ (op : HostOp) (s t : State), (∀ image, op ≠ .reset image) → hostOp op s = .next t → P s → P t)
    {ops : List HostOp} {s t : State} (hops : ∀ op ∈ ops, ∀ image, op ≠ .reset image) (h : hostRun ops s = .next t)
    (hs : P s) : P t := by
  induction ops generalizing s with
  | nil =>
    cases h
    exact hs
  | cons op ops ih =>
    rw [List.forall_mem_cons] at hops
    rw [hostRun] at h
    split at h
    next u hu => exact ih hops.2 h (hkeeps op s u hops.1 hu hs)
    next => cases h
    next => cases h

/-- Halted with this record at this pc. -/
def HaltedAt (r : FaultRecord) (pc : Word) (s : State) : Prop := s.fault = some r ∧ s.pc = pc

/-- Stalled at this pc. -/
def StalledAt (pc : Word) (s : State) : Prop := s.fault = none ∧ s.keyWait = none ∧ s.pc = pc ∧ 4096 ≤ pc.toNat

theorem runClass_eq_halted {s : State} : runClass s = .halted ↔ ∃ r, HaltedAt r s.pc s := by
  unfold runClass HaltedAt
  rcases s.fault with _ | r
  · split_ifs <;> simp_all
  · simp

theorem runClass_eq_stalled {s : State} : runClass s = .stalled ↔ StalledAt s.pc s := by
  unfold runClass StalledAt
  rcases s.fault with _ | r <;> rcases s.keyWait with _ | k <;> simp
  split_ifs <;> simp

section
variable {op : HostOp} {s t : State} {pc : Word}

theorem haltedAt_hostOp {r : FaultRecord} (hreset : ∀ image, op ≠ .reset image) (h : hostOp op s = .next t)
    (hs : HaltedAt r pc s) : HaltedAt r pc t := by
  by_cases hop : op = .step
  · subst hop
    cases (step_of_halted hs.1).symm.trans h
    exact hs
  · have hframe := onlyWrites_hostOp hreset hop h
    exact ⟨(hframe .fault (by simp)).trans hs.1, (hframe .pc (by simp)).trans hs.2⟩

theorem stalledAt_hostOp (hreset : ∀ image, op ≠ .reset image) (h : hostOp op s = .next t) (hs : StalledAt pc s) :
    StalledAt pc t := by
  obtain ⟨hfault, hwait, rfl, hpc⟩ := hs
  by_cases hop : op = .step
  · subst hop
    cases (step_of_stalled hfault hwait hpc).symm.trans h
    exact ⟨hfault, hwait, rfl, hpc⟩
  · have hframe := onlyWrites_hostOp hreset hop h
    exact ⟨(hframe .fault (by simp)).trans hfault, (hframe .keyWait (by simp)).trans hwait, hframe .pc (by simp), hpc⟩

end

/-- Settles O17: a halted step is the identity and a stalled step the tick, the other ports reach no part either class
reads, and reset takes nothing from the state before it but the draw count (log entry 2). -/
theorem onlyResetLeavesTheHaltedStateAndTheStall : Obligations.OnlyResetLeavesTheHaltedStateAndTheStall := by
  refine ⟨fun ops s t hops h => ⟨fun hclass => ?halted, fun hclass => ?stalled⟩, fun _ _ => ⟨_, rfl, rfl⟩⟩
  case halted =>
    obtain ⟨r, hs⟩ := runClass_eq_halted.1 hclass
    obtain ⟨hfault, hpc⟩ := hostRun_keeps (fun _ _ _ => haltedAt_hostOp) hops h hs
    exact ⟨runClass_eq_halted.2 ⟨r, hfault, rfl⟩, hfault.trans hs.1.symm, hpc⟩
  case stalled =>
    obtain ⟨hfault, hwait, hpc, hbound⟩ :=
      hostRun_keeps (fun _ _ _ => stalledAt_hostOp) hops h (runClass_eq_stalled.1 hclass)
    exact ⟨runClass_eq_stalled.2 ⟨hfault, hwait, rfl, hpc.symm ▸ hbound⟩, hpc⟩

end Sys2Proof
end

section
/-! PROOFS. Control flow (41_flow): SYS, CALL, RET, and the two of them in a row. -/

namespace Sys2Proof
open Sys2Proof.Machine

/-- Settles O27: SYS is the next pc alone (41_flow R120). -/
theorem sysOnlyAdvancesPc : Obligations.SysOnlyAdvancesPc :=
  fun nnn s => ⟨_, exec_sys s nnn, next_pc s, onlyWrites_next s⟩

/-! ### The frames of CALL and RET below the limits of the stack -/

section
variable {s : State} (nnn : Addr12)

theorem onlyWrites_call (h : s.sp.val < 16) :
    OnlyWrites (fun p => p = .pc ∨ p = .sp ∨ p = .stack ⟨s.sp.val, h⟩) s
      (setPc (addrOf nnn) (pushed (s.pc + 2#16) s h)) :=
  onlyWrites_trans (onlyWrites_mono (fun _ => .inr) (onlyWrites_pushed _ s h))
    (onlyWrites_mono (fun _ => .inl) (onlyWrites_setPc _ _))

theorem onlyWrites_ret (a : Word) (s : State) :
    OnlyWrites (fun p => p = .pc ∨ p = .sp) s (setPc a (popped s)) :=
  onlyWrites_trans (onlyWrites_mono (fun _ => .inr) (onlyWrites_popped s))
    (onlyWrites_mono (fun _ => .inl) (onlyWrites_setPc a _))

theorem pushed_stack_top (a : Word) (h : s.sp.val < 16) : (pushed a s h).stack[s.sp.val] = a := by
  simp [pushed]

/-- What RET does after a CALL: the stack is popped of the entry just pushed. -/
theorem exec_ret_after_call (a : Word) (h : s.sp.val < 16) :
    exec .ret (setPc a (pushed (s.pc + 2#16) s h)) =
      .next (setPc (s.pc + 2#16) (popped (setPc a (pushed (s.pc + 2#16) s h)))) := by
  rw [exec_ret_of_ne (by simp [pushed])]
  exact congrArg (fun b => Host.Outcome.next (setPc b (popped (setPc a (pushed (s.pc + 2#16) s h))))) (pushed_stack_top _ h)

/-- A part that reads as before after all may be left out of the frame. -/
theorem onlyWrites_of_kept {W W' : Part → Prop} {s t : State} (hframe : OnlyWrites W s t)
    (hkept : ∀ p, W p → ¬ W' p → Kept p s t) : OnlyWrites W' s t := by
  intro p hp
  by_cases hw : W p
  · exact hkept p hw hp
  · exact hframe p hw

end

/-- Settles O31: below depth 16 CALL is a push of pc + 2 and a jump (41_flow R123), at 16 the fault (D5). -/
theorem callPushesTheReturnAddress : Obligations.CallPushesTheReturnAddress := fun nnn s =>
  ⟨fun h => ⟨_, exec_call_of_lt nnn h, addrOf_toNat nnn, rfl, pushed_stack_top _ h, onlyWrites_call nnn h⟩,
    fun h => ⟨_, exec_call_of_full nnn h, rfl, onlyWrites_raiseFault _ _ _ s⟩⟩

/-- Settles O32: above depth 0 RET is a pop into pc (41_flow R121), at 0 the fault (D5). -/
theorem returnPopsTheReturnAddress : Obligations.ReturnPopsTheReturnAddress := fun s =>
  ⟨fun h => ⟨_, exec_ret_of_ne h, rfl, rfl, onlyWrites_ret _ s⟩,
    fun h => ⟨_, exec_ret_of_zero h, rfl, onlyWrites_raiseFault _ _ _ s⟩⟩

/-- Settles O33: RET pops the entry CALL pushed, so that sp is back and only pc and that entry differ. -/
theorem callThenReturnResumesAfterTheCall : Obligations.CallThenReturnResumesAfterTheCall := by
  intro nnn s h
  refine ⟨_, _, exec_call_of_lt nnn h, exec_ret_after_call _ h, rfl, rfl, ?frame⟩
  have hcall := onlyWrites_call nnn h
  have hret := onlyWrites_ret (s.pc + 2#16) (setPc (addrOf nnn) (pushed (s.pc + 2#16) s h))
  refine onlyWrites_of_kept (onlyWrites_trans hcall (onlyWrites_mono (fun _ => Or.imp_right .inl) hret)) ?_
  rintro p (hp | rfl | hp) hnot
  · exact absurd (.inl hp) hnot
  · rfl
  · exact absurd (.inr hp) hnot

end Sys2Proof
end

section
/-! PROOFS. Arithmetic and logic (43_alu section 2 and 3): copy, bitwise operations, sums, differences, shifts and RND. -/

namespace Sys2Proof
open Sys2Proof.Machine

/-- Settles O38: each of the four is one `setV` before the next pc, of V[y] or of the bitwise operation (43_alu R162 to
R165). -/
theorem copyAndLogicWriteOnlyVx : Obligations.CopyAndLogicWriteOnlyVx := by
  intro x y s
  refine ⟨⟨_, exec_ldReg x y s, getV_next_setV_same x _ s, next_setV_pc x _ s, onlyWrites_next_setV x _ s⟩,
    ⟨_, exec_orReg x y s, fun b _ => ?or, next_setV_pc x _ s, onlyWrites_next_setV x _ s⟩,
    ⟨_, exec_andReg x y s, fun b _ => ?and, next_setV_pc x _ s, onlyWrites_next_setV x _ s⟩,
    ⟨_, exec_xorReg x y s, fun b _ => ?xor, next_setV_pc x _ s, onlyWrites_next_setV x _ s⟩⟩
  case or => rw [getV_next_setV_same, BitVec.getLsbD_or]
  case and => rw [getV_next_setV_same, BitVec.getLsbD_and]
  case xor => rw [getV_next_setV_same, BitVec.getLsbD_xor]

/-! ### A result and its flag -/

section
variable (x : RegIdx) (a b : Byte) (s : State)

theorem getV_next_setResultAndFlag_flag : getV (next (setResultAndFlag x a b s)) regF = b := by
  rw [getV_next, getV_setResultAndFlag, if_pos rfl]

theorem next_setResultAndFlag_pc : (next (setResultAndFlag x a b s)).pc = s.pc + 2 := by
  simp

theorem onlyWrites_next_setResultAndFlag :
    OnlyWrites (fun p => p = .v x ∨ p = .v regF ∨ p = .pc) s (next (setResultAndFlag x a b s)) :=
  onlyWrites_trans (onlyWrites_mono (fun _ => Or.imp_right .inl) (onlyWrites_setResultAndFlag x a b s))
    (onlyWrites_mono (fun _ hp => .inr (.inr hp)) (onlyWrites_next _))

end

/-- With x = F the flag overwrites the result (43_alu R173, D7). -/
theorem getV_next_setResultAndFlag_result {x : RegIdx} (hx : x ≠ regF) (a b : Byte) (s : State) :
    getV (next (setResultAndFlag x a b s)) x = a := by
  rw [getV_next, getV_setResultAndFlag, if_neg hx, if_pos rfl]

theorem carryFlag_toNat (a b : Byte) : (carryFlag a b).toNat = if a.toNat + b.toNat > 255 then 1 else 0 := by
  simp [carryFlag, flagByte_toNat]

theorem greaterFlag_toNat (a b : Byte) : (greaterFlag a b).toNat = if a.toNat > b.toNat then 1 else 0 := by
  simp [greaterFlag, flagByte_toNat]

theorem lowBitFlag_toNat (a : Byte) : (lowBitFlag a).toNat = a.toNat % 2 := by
  rw [lowBitFlag, flagByte_toNat, BitVec.getLsbD, Nat.testBit_zero]
  split <;> simp_all

theorem highBitFlag_toNat (a : Byte) : (highBitFlag a).toNat = a.toNat / 128 := by
  have ha := a.isLt
  rw [highBitFlag, flagByte_toNat, BitVec.getLsbD, Nat.testBit_eq_decide_div_mod_eq]
  simp only [decide_eq_true_eq]
  split <;> omega

/-- Settles O39: the sum and its carry, both of the old operands (43_alu R166). -/
theorem addSetsTheCarryFlagLast : Obligations.AddSetsTheCarryFlagLast := by
  intro x y s
  refine ⟨_, exec_addReg x y s, fun hx => ?sum, ?carry, next_setResultAndFlag_pc x _ _ s,
    onlyWrites_next_setResultAndFlag x _ _ s⟩
  case sum => rw [getV_next_setResultAndFlag_result hx, BitVec.toNat_add]
  case carry => rw [getV_next_setResultAndFlag_flag, carryFlag_toNat]

theorem toNat_sub_byte (a b : Byte) : (a - b).toNat = (a.toNat + 256 - b.toNat) % 256 := by
  have hb := b.isLt
  rw [BitVec.toNat_sub]
  congr 1
  omega

/-- Settles O40: the difference and the strict comparison, both of the old operands (43_alu R167, R169). -/
theorem subtractionsSetTheStrictComparisonFlagLast : Obligations.SubtractionsSetTheStrictComparisonFlagLast := by
  intro x y s
  refine ⟨⟨_, exec_subReg x y s, fun hx => ?sub, ?subFlag, next_setResultAndFlag_pc x _ _ s,
      onlyWrites_next_setResultAndFlag x _ _ s⟩,
    ⟨_, exec_subnReg x y s, fun hx => ?subn, ?subnFlag, next_setResultAndFlag_pc x _ _ s,
      onlyWrites_next_setResultAndFlag x _ _ s⟩⟩
  case sub => rw [getV_next_setResultAndFlag_result hx, toNat_sub_byte]
  case subFlag => rw [getV_next_setResultAndFlag_flag, greaterFlag_toNat]
  case subn => rw [getV_next_setResultAndFlag_result hx, toNat_sub_byte]
  case subnFlag => rw [getV_next_setResultAndFlag_flag, greaterFlag_toNat]

/-- Settles O41: the half or the double, and the bit that is shifted out of the old operand (43_alu R168, R170). -/
theorem shiftsMoveTheBitOutIntoVf : Obligations.ShiftsMoveTheBitOutIntoVf := by
  intro x y s
  refine ⟨⟨_, exec_shr x y s, fun hx => ?shr, ?shrFlag, next_setResultAndFlag_pc x _ _ s,
      onlyWrites_next_setResultAndFlag x _ _ s⟩,
    ⟨_, exec_shl x y s, fun hx => ?shl, ?shlFlag, next_setResultAndFlag_pc x _ _ s,
      onlyWrites_next_setResultAndFlag x _ _ s⟩⟩
  case shr => rw [getV_next_setResultAndFlag_result hx, BitVec.toNat_ushiftRight, Nat.shiftRight_eq_div_pow, pow_one]
  case shrFlag => rw [getV_next_setResultAndFlag_flag, lowBitFlag_toNat]
  case shl => rw [getV_next_setResultAndFlag_result hx, BitVec.toNat_shiftLeft, Nat.shiftLeft_eq, pow_one]
  case shlFlag => rw [getV_next_setResultAndFlag_flag, highBitFlag_toNat]

/-- Settles O42: one draw, and one `setV` of the drawn byte AND kk (43_alu R171). -/
theorem randomByteIsMaskedAndFreshlyDrawn : Obligations.RandomByteIsMaskedAndFreshlyDrawn := by
  intro x kk s
  refine ⟨_, exec_rnd x s kk, fun b _ => ?bit, fun hkk => ?zero, rfl, rfl, ?frame⟩
  case bit =>
    rw [getV_next_setV_same, BitVec.getLsbD_and]
    rfl
  case zero =>
    rw [getV_next_setV_same, hkk]
    exact BitVec.and_zero
  case frame =>
    have hrnd := onlyWrites_rnd x ((rngDraw s).1 &&& kk) s
    exact onlyWrites_trans (onlyWrites_mono (fun _ => Or.imp_right .inr) hrnd)
      (onlyWrites_mono (fun _ hp => .inr (.inl hp)) (onlyWrites_next _))

/-- Settles O44: one `setI` of the 16-bit sum before the next pc (44_index_memory R191). -/
theorem indexAddWrapsWithoutFlag : Obligations.IndexAddWrapsWithoutFlag := fun x s =>
  ⟨_, exec_addI x s, indexPlus_toNat _ _, next_setI_pc _ s, onlyWrites_next_setI _ s⟩

end Sys2Proof
end

section
/-! PROOFS. Keys and timers (45_keys_timers, 70_reset section 3): the key skips, the key read, and two instructions in a
row. -/

namespace Sys2Proof
open Sys2Proof.Machine

theorem skipIf_not_pc (c : Bool) (s : State) : (skipIf (!c) s).pc = if c = true then s.pc + 2 else s.pc + 4 := by
  cases c <;> rfl

/-- Settles O51: below 16 each of the two is one `skipIf` of the press flag or of its negation (45_keys_timers R210, R211),
from 16 on the fault (D10). -/
theorem keySkipsTestThePressFlag : Obligations.KeySkipsTestThePressFlag := fun _ s =>
  ⟨fun _ hk =>
    ⟨⟨_, exec_skp_of_key hk, skipIf_pc s _, onlyWrites_skipIf _ s⟩,
      ⟨_, exec_sknp_of_key hk, skipIf_not_pc _ s, onlyWrites_skipIf _ s⟩⟩,
    fun h =>
      ⟨⟨_, exec_skp_of_no_key h, rfl, onlyWrites_raiseFault _ _ _ s⟩,
        ⟨_, exec_sknp_of_no_key h, rfl, onlyWrites_raiseFault _ _ _ s⟩⟩⟩

/-- Settles O53: one write of key_wait before the next pc (45_keys_timers R213). -/
theorem keyReadEntersTheKeyWait : Obligations.KeyReadEntersTheKeyWait := fun x s =>
  ⟨_, exec_ldVxK x s, rfl, rfl, onlyWrites_next_of_onlyWrites (onlyWrites_setKeyWait _ s)⟩

/-- The key read leaves the core waiting, so that the next step is the key-wait step. -/
theorem step_after_ldVxK {x : RegIdx} {s : State} (hfault : s.fault = none) :
    step (next (setKeyWait (some x) s)) = .next (keyWaitStep x (next (setKeyWait (some x) s))) :=
  step_of_keyWait hfault rfl

/-- Settles O54: the first step ticks and enters the wait, which the second step resolves at once by the latched key, or
leaves as it is without one; the second step does not tick (70_reset R287, R288). -/
theorem latchedKeyAnswersTheKeyReadOneStepLater : Obligations.LatchedKeyAnswersTheKeyReadOneStepLater := by
  intro x s hs hword
  have hfault : s.fault = none := hs.1
  have hfirst := (step_of_instr hs hword).trans (exec_ldVxK x (timerTick s))
  have hsecond := step_after_ldVxK (x := x) (s := timerTick s) hfault
  refine ⟨_, hfirst, fun k hk => ?latched, fun hnone => ?unlatched⟩
  case latched =>
    rw [keyWaitStep_some (s := next (setKeyWait (some x) (timerTick s))) x hk] at hsecond
    exact ⟨_, hsecond, by simp [getV_setV], rfl, rfl, rfl, countDown_toNat s.dt⟩
  case unlatched => rw [hsecond, keyWaitStep_none (s := next (setKeyWait (some x) (timerTick s))) x hnone]

/-- Settles O55: DT holds V[x] when the first step ends, and the tick of the second step counts it down before the read
(70_reset R286). -/
theorem delayTimerReadsOneLessAtTheNextInstruction : Obligations.DelayTimerReadsOneLessAtTheNextInstruction := by
  intro x y s t hs hword hstep hpc hword'
  cases (step_ldDtVx hs hword).symm.trans hstep
  obtain ⟨hfault, hwait, -⟩ := hs
  refine ⟨_, step_ldVxDt ⟨hfault, hwait, hpc⟩ hword', ?_⟩
  rw [getV_next_setV_same, countDown_toNat, next_dt, setDt_dt]

end Sys2Proof
end

section
/-! PROOFS. Memory transfer (44_index_memory, 20_memory): the bytes at I, the round trip, the data fault, and a store that
the next step fetches. -/

namespace Sys2Proof
open Sys2Proof.Machine

/-- The pc of the next instruction joins the parts an instruction has written. -/
theorem onlyWrites_next_after {W : Part → Prop} {s t : State} (h : OnlyWrites W s t) :
    OnlyWrites (fun p => W p ∨ p = .pc) s (next t) :=
  onlyWrites_trans (onlyWrites_mono (fun _ => .inl) h) (onlyWrites_mono (fun _ => .inr) (onlyWrites_next t))

/-! ### The bytes stored at I -/

/-- Byte k of a store at I is read back at I + k (20_memory R56, R60). -/
theorem readByte_storeBytes_effAddr {s : State} {bs : List Byte} (hr : s.i.toNat + bs.length ≤ 4096) {k : Nat}
    (hk : k < bs.length) : readByte (storeBytes (effAddr s 0) bs s) (effAddr s k) = bs[k] := by
  have hread := readByte_storeBytes s (effAddr s 0) bs hr (effAddr s k)
  have hoffset : effAddr s k - effAddr s 0 = k := by simp [effAddr]
  rw [hread, dif_pos ⟨by simp [effAddr], hoffset.symm ▸ hk⟩]
  simp only [hoffset]

/-- The three decimal digits of a byte are bytes. -/
theorem bcdDigits_toNat (b : Byte) : (bcdDigits b).map BitVec.toNat = [b.toNat / 100, b.toNat / 10 % 10, b.toNat % 10] := by
  have hb := b.isLt
  simp [bcdDigits]
  omega

/-- Settles O45: one store of the three digits at I before the next pc (44_index_memory R193). -/
theorem bcdDigitsAreStoredAtIndex : Obligations.BcdDigitsAreStoredAtIndex := by
  intro x s h
  have hr : s.i.toNat + (bcdDigits (getV s x)).length ≤ 4096 := by
    simp only [effAddr, length_bcdDigits] at h ⊢
    omega
  have hdigits := bcdDigits_toNat (getV s x)
  simp only [bcdDigits, List.map_cons, List.map_nil, List.cons.injEq, and_true] at hdigits
  obtain ⟨hhundreds, htens, hones⟩ := hdigits
  have hframe := onlyWrites_storeBytes_bcdDigits h (getV s x)
  refine ⟨_, exec_ldB_of_lt h, ?hundreds, ?tens, ?ones, rfl, onlyWrites_next_after hframe⟩
  case hundreds => rwa [readByte_next, readByte_storeBytes_effAddr hr (k := 0) (by simp)]
  case tens => rwa [readByte_next, readByte_storeBytes_effAddr hr (k := 1) (by simp)]
  case ones => rwa [readByte_next, readByte_storeBytes_effAddr hr (k := 2) (by simp)]

/-- V[r] is byte r of the stored registers. -/
theorem readByte_storeBytes_regsUpTo {s : State} {x r : RegIdx} (h : effAddr s x.toNat < 4096) (hr : r ≤ x) :
    readByte (storeBytes (effAddr s 0) (regsUpTo s x) s) (effAddr s r.toNat) = getV s r := by
  have hle : r.toNat ≤ x.toNat := hr
  have hin : s.i.toNat + (regsUpTo s x).length ≤ 4096 := by
    rw [length_regsUpTo]
    unfold effAddr at h
    omega
  rw [readByte_storeBytes_effAddr hin (by rw [length_regsUpTo]; omega), getElem_regsUpTo, BitVec.ofNat_toNat,
    BitVec.setWidth_eq]

/-- Settles O46: one store of the registers at I before the next pc (44_index_memory R194); I stays (D9). -/
theorem registersAreStoredAtIndex : Obligations.RegistersAreStoredAtIndex := fun _ _ h =>
  ⟨_, exec_storeRegs_of_lt h, fun _ => readByte_storeBytes_regsUpTo h, rfl,
    onlyWrites_next_after (onlyWrites_storeBytes_regsUpTo h)⟩

/-! ### The registers loaded from I -/

/-- Settles O47: one load of the registers up to x from I before the next pc (44_index_memory R195); I stays (D9). -/
theorem registersAreLoadedFromIndex : Obligations.RegistersAreLoadedFromIndex := fun x s h =>
  ⟨_, exec_loadRegs_of_lt h, fun r hr => (getV_loadUpTo s x r).trans (if_pos hr), rfl,
    onlyWrites_next_after (onlyWrites_loadUpTo x s)⟩

/-- A load reads memory and I only. -/
theorem readByte_effAddr_congr {t u : State} (hmem : u.mem = t.mem) (hi : u.i = t.i) (k : Nat) :
    readByte u (effAddr u k) = readByte t (effAddr t k) := by
  rw [readByte, readByte, effAddr, effAddr, hmem, hi]

/-- Settles O48: the load reads at I + r the byte the store has left there, V[r]. -/
theorem storeThenLoadRestoresTheRegisters : Obligations.StoreThenLoadRestoresTheRegisters := by
  intro x s h
  obtain ⟨t, hstore, hstored, -, hframe⟩ := registersAreStoredAtIndex x s h
  have hi : t.i = s.i := hframe .i (by simp [AtIndex])
  refine ⟨t, hstore, fun u hmem hui => ?_⟩
  have hu : effAddr u x.toNat < 4096 := by rwa [effAddr, hui, hi]
  obtain ⟨w, hload, hloaded, -, -⟩ := registersAreLoadedFromIndex x u hu
  refine ⟨w, hload, fun r hr => ?_⟩
  calc getV w r = readByte u (effAddr u r.toNat) := hloaded r hr
    _ = readByte t (effAddr t r.toNat) := readByte_effAddr_congr hmem hui _
    _ = readByte t (effAddr s r.toNat) := by rw [effAddr, effAddr, hi]
    _ = getV s r := hstored r hr

/-! ### The data fault -/

/-- Settles O49: each of the four tests its range first and then only raises the fault (20_memory R54 to R56, D4). -/
theorem outOfRangeDataAddressFaultsPrecisely : Obligations.OutOfRangeDataAddressFaultsPrecisely := by
  intro s
  refine ⟨fun x y n ⟨row, hrow, hge⟩ => ?drw, fun _ h => ⟨_, exec_ldB_of_ge h, rfl, onlyWrites_raiseFault _ _ _ s⟩,
    fun _ h => ⟨_, exec_storeRegs_of_ge h, rfl, onlyWrites_raiseFault _ _ _ s⟩,
    fun _ h => ⟨_, exec_loadRegs_of_ge h, rfl, onlyWrites_raiseFault _ _ _ s⟩⟩
  case drw =>
    have hout : ¬ dataInRange s n.toNat = true := fun hin => by
      have := (dataInRange_iff s n.toNat).1 hin row hrow
      omega
    exact ⟨_, exec_drw_of_outOfRange hout, rfl, onlyWrites_raiseFault _ _ _ s⟩

/-! ### A store that the next step fetches -/

/-- Settles O56: the store leaves V0 and V1 at I and I + 1, and pc, 2 more, is I (20_memory R65). -/
theorem storedInstructionIsFetchedByTheNextStep : Obligations.StoredInstructionIsFetchedByTheNextStep := by
  intro x s hs hword hi hx h
  obtain ⟨t, hstore, hstored, hpc, -⟩ := registersAreStoredAtIndex x (timerTick s) h
  have hpcI : t.pc = s.i := hpc.trans hi.symm
  have hV0 : readByte t t.pc.toNat = getV s 0 := hpcI ▸ hstored 0 (BitVec.le_def.2 (Nat.zero_le _))
  have hV1 : readByte t (t.pc.toNat + 1) = getV s 1 := hpcI ▸ hstored 1 hx
  exact ⟨t, (step_of_instr hs hword).trans hstore, by rw [fetchWord, hV0, hV1]⟩

/-! ### The canonical form of memory -/

/-- With rising addresses a lookup finds the one cell of its address. -/
theorem memFind_eq_some_iff {m : Memory} (hm : m.Pairwise fun c d => c.1 < d.1) (a : Nat) (b : Byte) :
    memFind a m = some b ↔ (a, b) ∈ m := by
  induction m with
  | nil => simp [memFind]
  | cons c m ih =>
    rw [List.pairwise_cons] at hm
    obtain ⟨hfirst, hrest⟩ := hm
    rw [memFind, List.mem_cons]
    split
    next hc =>
      have hnot : (a, b) ∉ m := fun hmem => (hfirst _ hmem).ne hc
      simp [hnot, Prod.ext_iff, hc, eq_comm]
    next hc =>
      have hne : (a, b) ≠ c := fun heq => hc (heq ▸ rfl)
      simp [ih hrest, hne]

/-- A canonical memory lists exactly the addresses that read as another byte than their reset byte. -/
theorem mem_iff_memRead {m : Memory} (hm : Memory.wf m) (a : Nat) (b : Byte) :
    (a, b) ∈ m ↔ a < 4096 ∧ b ≠ resetByte a ∧ memRead m a = b := by
  obtain ⟨hrising, hcells⟩ := hm
  constructor
  · intro hmem
    obtain ⟨ha, hb⟩ := hcells _ hmem
    exact ⟨ha, hb, by simp [memRead, (memFind_eq_some_iff hrising a b).2 hmem]⟩
  · rintro ⟨-, hb, hread⟩
    rw [← memFind_eq_some_iff hrising]
    rcases hfind : memFind a m with _ | v
    · exact absurd (by simpa [memRead, hfind] using hread.symm) hb
    · simpa [memRead, hfind] using hread

/-- Settles O50: the reads say which cells are listed, and rising addresses leave one order for them. -/
theorem canonicalMemoriesThatReadAlikeAreEqual : Obligations.CanonicalMemoriesThatReadAlikeAreEqual := by
  intro m m' hm hm' hread
  have hsame : ∀ c : Host.Cell, c ∈ m ↔ c ∈ m' := by
    rintro ⟨a, b⟩
    rw [mem_iff_memRead hm, mem_iff_memRead hm']
    refine and_congr_right fun ha => ?_
    rw [hread a ha]
  have : Std.Antisymm fun c d : Host.Cell => c.1 < d.1 := ⟨fun _ _ h h' => absurd h' h.asymm⟩
  have : Std.Irrefl fun c d : Host.Cell => c.1 < d.1 := ⟨fun c => lt_irrefl c.1⟩
  exact hm.1.eq_of_mem_iff hm'.1 hsame

end Sys2Proof
end

section
/-! PROOFS. Display (42_display): what DRW toggles and reports, and a second equal draw. -/

namespace Sys2Proof
open Sys2Proof.Machine

section
variable (x y : RegIdx) (n : Nibble) (s : State)

/-- The sprite bit that falls on a pixel when DRW executes in `s`. -/
def spriteOn (x y : RegIdx) (n : Nibble) (s : State) (px : Fin 64) (py : Fin 32) : Bool :=
  spriteAt s (getV s x).toNat (getV s y).toNat n.toNat px py

theorem drawn_spec :
    (∀ (px : Fin 64) (py : Fin 32), fbGet (drawn x y n s).1 px.val py.val =
      (fbGet s px.val py.val ^^ spriteOn x y n s px py)) ∧
    ((drawn x y n s).2 = true ↔
      ∃ (px : Fin 64) (py : Fin 32), spriteOn x y n s px py = true ∧ fbGet s px.val py.val = true) ∧
    ((drawn x y n s).1.dirty = true ↔ s.dirty = true ∨
      ∃ (px : Fin 64) (py : Fin 32), spriteOn x y n s px py = true) := by
  have hn : n.toNat ≤ 32 := by omega
  obtain ⟨hpixel, hcollision, hdirty, -⟩ := drawSprite_spec s (getV s x).toNat (getV s y).toNat n.toNat hn
  have hset := exists_spriteBit_iff s (getV s x).toNat (getV s y).toNat n.toNat hn
  refine ⟨fun px py => ?pixel, ?collision, ?dirty⟩
  case pixel => rw [drawn, hpixel, spriteOn, spriteAt_eq]
  case collision =>
    exact hcollision.trans (hset (fun p q => fbGet s p q = true) fun p q p' q' hp hq h => fbGet_congr s hp hq ▸ h)
  case dirty =>
    have hany := hset (fun _ _ => True) fun _ _ _ _ _ _ _ => trivial
    simp only [and_true] at hany
    exact hdirty.trans (or_congr_right hany)

theorem fbGet_afterDrw (px : Fin 64) (py : Fin 32) :
    fbGet (afterDrw x y n s) px.val py.val = (fbGet s px.val py.val ^^ spriteOn x y n s px py) := by
  obtain ⟨hpixel, -, -⟩ := drawn_spec x y n s
  rw [afterDrw, fbGet_next, fbGet_setV, hpixel]

theorem vf_afterDrw : (getV (afterDrw x y n s) regF).toNat = if (drawn x y n s).2 = true then 1 else 0 := by
  rw [afterDrw, getV_next_setV_same, flagByte_toNat]

theorem onlyWrites_afterDrw :
    OnlyWrites (fun p => p = .v regF ∨ (∃ px py, p = .pixel px py) ∨ p = .dirty ∨ p = .pc) s (afterDrw x y n s) := by
  have hdraw := onlyWrites_drawnFrom (drawnFrom_drawn x y n s)
  have hflag := onlyWrites_next_setV regF (flagByte (drawn x y n s).2) (drawn x y n s).1
  refine onlyWrites_trans (onlyWrites_mono (fun _ hp => .inr (hp.imp_right .inl)) hdraw) (onlyWrites_mono ?_ hflag)
  exact fun _ => Or.imp_right fun hp => .inr (.inr hp)

end

/-- Settles O35: DRW in range is the drawn sprite, VF and the next pc; the sprite's rows and columns are renamed to the
pixels they fall on (42_display R151). -/
theorem drawTogglesExactlyTheSpritePixels : Obligations.DrawTogglesExactlyTheSpritePixels := by
  intro x y n s h
  obtain ⟨-, hcollision, hdirty⟩ := drawn_spec x y n s
  refine ⟨_, exec_drw_of_inRange ((dataInRange_iff s n.toNat).2 h), fbGet_afterDrw x y n s, ?flag, hdirty, ?pc,
    onlyWrites_afterDrw x y n s⟩
  case flag =>
    rw [vf_afterDrw]
    by_cases hhit : (drawn x y n s).2 = true
    · exact .inl ⟨if_pos hhit, hcollision.1 hhit⟩
    · refine .inr ⟨if_neg hhit, fun px py hsprite => ?_⟩
      exact Bool.eq_false_iff.2 fun hset => hhit (hcollision.2 ⟨px, py, hsprite, hset⟩)
  case pc => exact congrArg (· + 2#16) (drawnFrom_drawn x y n s).pc_eq

/-- The sprite a second DRW draws is the first one's, when the first wrote neither coordinate: it wrote VF, pixels, dirty
and pc only. -/
theorem spriteOn_afterDrw {x y : RegIdx} (hx : x ≠ regF) (hy : y ≠ regF) (n : Nibble) (s : State) :
    spriteOn x y n (afterDrw x y n s) = spriteOn x y n s := by
  have hframe := onlyWrites_afterDrw x y n s
  have hcx : getV (afterDrw x y n s) x = getV s x := hframe (.v x) (by simpa using hx)
  have hcy : getV (afterDrw x y n s) y = getV s y := hframe (.v y) (by simpa using hy)
  have hi : (afterDrw x y n s).i = s.i := hframe .i (by simp)
  have hbyte : ∀ a, readByte (afterDrw x y n s) a = readByte s a := fun a => hframe (.byte a) (by simp)
  funext px py
  simp only [spriteOn, spriteAt, effAddr, hcx, hcy, hi, hbyte]

/-- Settles O36: XOR with the same sprite twice is no change, and a pixel under a set sprite bit is set after the first draw
exactly when it was clear before (log entry 12). -/
theorem drawingTwiceRestoresTheGrid : Obligations.DrawingTwiceRestoresTheGrid := by
  intro x y n s hx hy h
  have hi : (afterDrw x y n s).i = s.i := onlyWrites_afterDrw x y n s .i (by simp)
  have hagain : ∀ row, row < n.toNat → effAddr (afterDrw x y n s) row < 4096 := by simpa only [effAddr, hi] using h
  have hsprite := spriteOn_afterDrw hx hy n s
  obtain ⟨-, hcollision, -⟩ := drawn_spec x y n (afterDrw x y n s)
  refine ⟨_, _, exec_drw_of_inRange ((dataInRange_iff s n.toNat).2 h),
    exec_drw_of_inRange ((dataInRange_iff _ n.toNat).2 hagain), fun px py => ?grid, ?flag⟩
  case grid => rw [fbGet_afterDrw, fbGet_afterDrw, hsprite, Bool.xor_assoc, Bool.xor_self, Bool.xor_false]
  case flag =>
    have hset : ∀ px py, spriteOn x y n s px py = true ∧ fbGet (afterDrw x y n s) px.val py.val = true ↔
        spriteOn x y n s px py = true ∧ fbGet s px.val py.val = false := fun px py => by
      rw [fbGet_afterDrw]
      exact and_congr_right fun hbit => by simp [hbit]
    simp only [hsprite, hset] at hcollision
    rw [vf_afterDrw]
    refine Iff.trans ?_ hcollision
    simp

end Sys2Proof
end
